-- ==== Sys2Proof/Word.lean ====
section
/-!
DEFINITION. The word types of extprec CORE: a port word (spec/00_scope.md R9, PORT_W = 64) and the opcode byte
(spec/10_state.md R23).
-/

namespace Sys2Proof

/-- A word of an operand port or a result port: PORT_W = 64 bits (00_scope.md R9, 10_state.md R23, R24). -/
abbrev Word := BitVec 64

/-- The opcode byte, and the fault latch's record of one (10_state.md R23, R25). -/
abbrev Byte := BitVec 8

end Sys2Proof
end

