-- ==== Sys2Proof/Config.lean ====
section
/-!
DEFINITION. What an implementation of extprec CORE fixes at elaboration (spec/00_scope.md R8 to R11), and the values the
spec leaves free (spec/42_div.md R137).
-/

namespace Sys2Proof

/-- An operation width: 32 or 64, never anything else (00_scope.md R12). -/
inductive Width where
  | w32
  | w64
  deriving DecidableEq, Repr

/-- The number of bits of a width. -/
def Width.bits : Width → Nat
  | .w32 => 32
  | .w64 => 64

/-- The configuration of one block, fixed at elaboration (10_state.md R31). It is an argument of the model: `State` carries
it as plain data that no step changes, so a statement about every state holds for every configuration (log entry 1). -/
structure Config where
  /-- NATIVE_W, the native word size (00_scope.md R8). -/
  nativeW : Width
  /-- DIV_OVF_CHECK, whether the divider checks for quotient overflow (00_scope.md R10). -/
  divOvfCheck : Bool
  deriving DecidableEq, Repr

/-- The configuration of `State.reset`. DIV_OVF_CHECK = false is the default of 00_scope.md R10. NATIVE_W has no default
(R8 leaves it OPEN): 64 is a DESIGN CHOICE (log entry 1, unsafe). -/
def Config.initial : Config := { nativeW := .w64, divOvfCheck := false }

/-- The `n`-th free value: `draw(W)` of 00_scope.md R16 is the low W bits of it. It has no body, so no proof can see what a
draw is, and a statement that mentions one holds for every value (42_div.md R137; log entry 2). -/
opaque Config.draw : Nat → Word

/-- `LAT_<op>`, the latency of each opcode byte: any positive number, the same for all operands (00_scope.md R11,
70_reset_and_hazards.md R197). No rule of the model reads it (R11; log entry 6). -/
opaque Config.latency : Byte → ℕ+

end Sys2Proof
end

