-- ==== Sys2Proof/Syntax.lean ====
section
/-!
DEFINITION. Requests and instructions of extprec CORE: the request ports (spec/10_state.md R23), the two fields of an opcode
(spec/30_encoding.md R62) and the twelve operations of the opcode map (spec/30_encoding.md R64).
-/

namespace Sys2Proof

/-- One request as the four request ports carry it (10_state.md R23). -/
structure Request where
  /-- The opcode byte `OP`. -/
  op : Byte
  /-- The first operand word `A`. -/
  a : Word
  /-- The second operand word `B`. -/
  b : Word
  /-- The third operand word `C`. -/
  c : Word
  deriving DecidableEq, Repr

/-- The operation family, field FAM of the opcode byte (30_encoding.md R62). -/
inductive Family where
  | add
  | sub
  | mul
  | div
  deriving DecidableEq, Repr

/-- The width select, field WSEL of the opcode byte, its reserved value left out (30_encoding.md R62). -/
inductive WidthSel where
  | w32
  | w64
  | native
  deriving DecidableEq, Repr

/-- The twelve operations, one constructor per row of the opcode map (30_encoding.md R64), with the request's operand words
in the order of the ports A, B, C (30_encoding.md R67). MUL carries its `C` too, since a request always has three words;
that it never influences the response is a statement (R67), not a matter of syntax. -/
inductive Instr where
  /-- 0x00 ADD32 (40_addsub.md R82) -/
  | add32 (x y carry : Word)
  /-- 0x01 SUB32 (40_addsub.md R92) -/
  | sub32 (x y borrow : Word)
  /-- 0x02 MUL32 (41_mul.md R111) -/
  | mul32 (x y c : Word)
  /-- 0x03 DIV32 (42_div.md R131) -/
  | div32 (hi lo x : Word)
  /-- 0x04 ADD64 (40_addsub.md R83) -/
  | add64 (x y carry : Word)
  /-- 0x05 SUB64 (40_addsub.md R93) -/
  | sub64 (x y borrow : Word)
  /-- 0x06 MUL64 (41_mul.md R112) -/
  | mul64 (x y c : Word)
  /-- 0x07 DIV64 (42_div.md R132) -/
  | div64 (hi lo x : Word)
  /-- 0x08 ADD (40_addsub.md R84) -/
  | add (x y carry : Word)
  /-- 0x09 SUB (40_addsub.md R94) -/
  | sub (x y borrow : Word)
  /-- 0x0A MUL (41_mul.md R113) -/
  | mul (x y c : Word)
  /-- 0x0B DIV (42_div.md R133) -/
  | div (hi lo x : Word)
  deriving DecidableEq, Repr

/-- The family of an instruction (30_encoding.md R64). -/
def Instr.family : Instr → Family
  | .add32 _ _ _ | .add64 _ _ _ | .add _ _ _ => .add
  | .sub32 _ _ _ | .sub64 _ _ _ | .sub _ _ _ => .sub
  | .mul32 _ _ _ | .mul64 _ _ _ | .mul _ _ _ => .mul
  | .div32 _ _ _ | .div64 _ _ _ | .div _ _ _ => .div

/-- The width select of an instruction (30_encoding.md R64). -/
def Instr.widthSel : Instr → WidthSel
  | .add32 _ _ _ | .sub32 _ _ _ | .mul32 _ _ _ | .div32 _ _ _ => .w32
  | .add64 _ _ _ | .sub64 _ _ _ | .mul64 _ _ _ | .div64 _ _ _ => .w64
  | .add _ _ _ | .sub _ _ _ | .mul _ _ _ | .div _ _ _ => .native

/-- The operand words (A, B, C) of an instruction (30_encoding.md R67). -/
def Instr.operands : Instr → Word × Word × Word
  | .add32 a b c | .sub32 a b c | .mul32 a b c | .div32 a b c
  | .add64 a b c | .sub64 a b c | .mul64 a b c | .div64 a b c
  | .add a b c | .sub a b c | .mul a b c | .div a b c => (a, b, c)

end Sys2Proof
end

