-- ==== Sys2Proof/WellFormed.lean ====
section
/-!
DEFINITION. The form the assembler writes (spec/30_encoding.md R72). It is a check on written requests, not a condition for
execution: the block executes every request with a defined opcode byte (spec/30_encoding.md R67; log entry 12), and every statement about
decoding and executing holds without it.
-/

namespace Sys2Proof

/-- The operand word C is as the assembler writes it: zero on a MUL, anything elsewhere (30_encoding.md R72). -/
def Instr.wellFormed : Instr → Bool
  | .mul32 _ _ c | .mul64 _ _ c | .mul _ _ c => c == 0
  | .add32 _ _ _ | .add64 _ _ _ | .add _ _ _ => true
  | .sub32 _ _ _ | .sub64 _ _ _ | .sub _ _ _ => true
  | .div32 _ _ _ | .div64 _ _ _ | .div _ _ _ => true

end Sys2Proof
end

