-- ==== Sys2Proof/Decode.lean ====
section
/-!
DEFINITION. The decoder of a request, total on every byte and every bit vector, rejecting by name, and after it the encoder
and the assembler (spec/30_encoding.md R60 to R73).
-/

namespace Sys2Proof

/-- Why bits are no instruction (30_encoding.md R60, R69, R71). -/
inductive DecodeError where
  /-- RSV, bits 7:4 of the opcode byte, is not 0000: bytes 0x10 to 0xFF (R69). -/
  | reservedBits (op : Byte)
  /-- WSEL = 11 with RSV = 0000: bytes 0x0C to 0x0F (R69). -/
  | reservedWidth (op : Byte)
  /-- A serialised request that is not 200 bits long (R60, R71). -/
  | wrongLength (nbits : Nat)
  deriving DecidableEq, Repr

/-! ### Decoding -/

/-- Field FAM of the opcode byte, bits 1:0 (30_encoding.md R62). -/
def decodeFamily (fam : BitVec 2) : Family :=
  if fam = 0b00#2 then .add else if fam = 0b01#2 then .sub else if fam = 0b10#2 then .mul else .div

/-- Field WSEL of the opcode byte, bits 3:2; 11 is reserved (30_encoding.md R62). -/
def decodeWidthSel (wsel : BitVec 2) : Option WidthSel :=
  if wsel = 0b00#2 then some .w32 else if wsel = 0b01#2 then some .w64
  else if wsel = 0b10#2 then some .native else none

/-- The opcode byte: RSV must be 0000 and WSEL not 11 (30_encoding.md R62, R69). -/
def decodeOpcode (op : Byte) : Except DecodeError (Family × WidthSel) :=
  if op.extractLsb' 4 4 ≠ 0#4 then .error (.reservedBits op)
  else match decodeWidthSel (op.extractLsb' 2 2) with
    | none => .error (.reservedWidth op)
    | some wsel => .ok (decodeFamily (op.extractLsb' 0 2), wsel)

/-- The operation of a family and a width select (30_encoding.md R64). -/
def buildInstr (fam : Family) (wsel : WidthSel) (a b c : Word) : Instr :=
  match fam, wsel with
  | .add, .w32 => .add32 a b c
  | .sub, .w32 => .sub32 a b c
  | .mul, .w32 => .mul32 a b c
  | .div, .w32 => .div32 a b c
  | .add, .w64 => .add64 a b c
  | .sub, .w64 => .sub64 a b c
  | .mul, .w64 => .mul64 a b c
  | .div, .w64 => .div64 a b c
  | .add, .native => .add a b c
  | .sub, .native => .sub a b c
  | .mul, .native => .mul a b c
  | .div, .native => .div a b c

/-- Decode a request as the ports carry it. Operands are taken whole from their ports (30_encoding.md R63). -/
def decodeRequest (r : Request) : Except DecodeError Instr :=
  match decodeOpcode r.op with
  | .error e => .error e
  | .ok (fam, wsel) => .ok (buildInstr fam wsel r.a r.b r.c)

/-- The fields of a packed request REQ[199:0] (30_encoding.md R60). -/
def unpackRequest (w : BitVec 200) : Request :=
  { op := w.extractLsb' 0 8, a := w.extractLsb' 8 64, b := w.extractLsb' 72 64, c := w.extractLsb' 136 64 }

/-- Decode a packed request (30_encoding.md R60). -/
def decode (w : BitVec 200) : Except DecodeError Instr :=
  decodeRequest (unpackRequest w)

/-- Decode a serialised request of `nbits` bits whose value is `w`: every request is 200 bits (30_encoding.md R60, R71). -/
def decodeSerial (nbits w : Nat) : Except DecodeError Instr :=
  if nbits = 200 then decode (BitVec.ofNat 200 w) else .error (.wrongLength nbits)

/-- The packed request whose low `nbits` bits are those of `w` and whose other bits are 0. The opcode table numbers its bits as
REQ[199:0] does (30_encoding.md R60). -/
def tableRequest (nbits w : Nat) : Request :=
  unpackRequest (BitVec.ofNat 200 (w % 2 ^ nbits))

/-- The instruction the decoder reads from an opcode-table row's bits, every bit above them 0. -/
def decodeTableWord (nbits w : Nat) : Option Instr :=
  (decodeRequest (tableRequest nbits w)).toOption

/-! ### Encoding -/

/-- The bits of field FAM (30_encoding.md R62). -/
def encodeFamily : Family → BitVec 2
  | .add => 0b00#2
  | .sub => 0b01#2
  | .mul => 0b10#2
  | .div => 0b11#2

/-- The bits of field WSEL (30_encoding.md R62). -/
def encodeWidthSel : WidthSel → BitVec 2
  | .w32 => 0b00#2
  | .w64 => 0b01#2
  | .native => 0b10#2

/-- The opcode byte RSV, WSEL, FAM, most significant field first (30_encoding.md R62). -/
def opcodeByte (fam : Family) (wsel : WidthSel) : Byte :=
  0#4 ++ encodeWidthSel wsel ++ encodeFamily fam

/-- The request of an instruction (30_encoding.md R64, R67). -/
def encodeRequest (i : Instr) : Request :=
  { op := opcodeByte i.family i.widthSel, a := i.operands.1, b := i.operands.2.1, c := i.operands.2.2 }

/-- Pack a request as C:B:A:OP, most significant field first (30_encoding.md R60). -/
def packRequest (r : Request) : BitVec 200 :=
  r.c ++ r.b ++ r.a ++ r.op

/-- The packed request of an instruction (30_encoding.md R60). -/
def encode (i : Instr) : BitVec 200 :=
  packRequest (encodeRequest i)

/-! ### The assembler -/

/-- The mnemonic of an operation (30_encoding.md R64). -/
def mnemonic : Family → WidthSel → String
  | .add, .w32 => "ADD32"
  | .sub, .w32 => "SUB32"
  | .mul, .w32 => "MUL32"
  | .div, .w32 => "DIV32"
  | .add, .w64 => "ADD64"
  | .sub, .w64 => "SUB64"
  | .mul, .w64 => "MUL64"
  | .div, .w64 => "DIV64"
  | .add, .native => "ADD"
  | .sub, .native => "SUB"
  | .mul, .native => "MUL"
  | .div, .native => "DIV"

/-- The twelve operations in the order of their opcode bytes (30_encoding.md R64). -/
def opcodeMap : List (Family × WidthSel) :=
  [(.add, .w32), (.sub, .w32), (.mul, .w32), (.div, .w32), (.add, .w64), (.sub, .w64), (.mul, .w64), (.div, .w64),
    (.add, .native), (.sub, .native), (.mul, .native), (.div, .native)]

/-- The one instruction that a written operation with these operand values stands for: three operands, or two for a MUL,
whose C is then 0; no other count is a request (30_encoding.md R72, R73). -/
def assemble (fam : Family) (wsel : WidthSel) (operands : List Word) : Option Instr :=
  match fam, operands with
  | .mul, [a, b] => some (buildInstr .mul wsel a b 0)
  | .mul, _ => none
  | _, [a, b, c] => some (buildInstr fam wsel a b c)
  | _, _ => none

/-- The same from a mnemonic as it is written: upper case, one of the twelve, no alias (30_encoding.md R72, R73). -/
def assembleLine (name : String) (operands : List Word) : Option Instr :=
  match opcodeMap.find? (fun o => mnemonic o.1 o.2 == name) with
  | some (fam, wsel) => assemble fam wsel operands
  | none => none

end Sys2Proof
end

