-- ==== Sys2Proof/Machine/State.lean ====
section
/-!
DEFINITION. The state of one block (spec/10_state.md R20 to R31), the response (spec/10_state.md R24, spec/30_encoding.md
R61), the reasons a step can stop, and the state after reset (spec/70_reset_and_hazards.md R190 to R192).
-/

namespace Sys2Proof.Machine

/-- The fault codes of the response's FAULT field and of the latch field FLT (60_exceptions.md R160). -/
inductive FaultCode where
  | none
  | divByZero
  | illegalOp
  | quotientOverflow
  deriving DecidableEq, Repr

/-- The 2-bit code of a fault (60_exceptions.md R160). -/
def FaultCode.code : FaultCode → BitVec 2
  | .none => 0
  | .divByZero => 1
  | .illegalOp => 2
  | .quotientOverflow => 3

/-- A response: two result words, or a fault code and no words (10_state.md R24, 60_exceptions.md R165; log entry 11). -/
inductive Response where
  | result (r0 r1 : Word)
  | fault (f : FaultCode)
  deriving DecidableEq, Repr

/-- The state of one block. The spec's own pieces are `cfg`, `flt`, `fop`, `inflight` (10_state.md R31) and the response ports
(10_state.md R24). The last three fields are the model's own: what the host drives at the two inputs, and the count of
free values drawn (log entries 2, 3 and 4). -/
structure State where
  /-- NATIVE_W and DIV_OVF_CHECK, fixed at elaboration: no step changes them (00_scope.md R8, R10). -/
  cfg : Config
  /-- FLT, the fault latch's code (10_state.md R25). -/
  flt : FaultCode
  /-- FOP, the opcode byte of the faulting request (10_state.md R25). -/
  fop : Byte
  /-- A request accepted but not yet answered, at most one (10_state.md R30, 20_memory.md R44). -/
  inflight : Option Request
  /-- The response the step just taken delivered; none where it delivered none (10_state.md R24, log entry 5). -/
  response : Option Response
  /-- The requests the host presents: the first is on the request ports now (10_state.md R23, log entry 3). -/
  requests : List Request
  /-- The level of the reset input at this step and the steps after it; past the list's end it is released
  (70_reset_and_hazards.md R190, log entry 4). -/
  resetIn : List Bool
  /-- How many free values have been drawn (42_div.md R137, log entry 2). -/
  draws : Nat
  deriving DecidableEq, Repr

/-- The reasons a step stops with a fault. (A fault the SPEC describes, such as DIV_BY_ZERO, is a next state: see `raise`.) -/
inductive Fault where
  /-- Raised by `step` (through `holdFaulted`): the block is faulted, a request is at it, and reset is not asserted. The spec gives
  no step there: "stuck", not accepted and no response, until reset (60_exceptions.md R166, R178,
  93_implementation_defined.md I6). Safe: the model stops where the block waits. -/
  | blockFaulted
  deriving DecidableEq, Repr

/-- The reasons a step is refused. -/
inductive Refusal where
  /-- Raised by an arm of `exec` whose instruction has no meaning yet, by its mnemonic. Safe. No arm raises it now. -/
  | notModelled (mnemonic : String)
  deriving DecidableEq, Repr

/-- The state right after reset of a block elaborated with the configuration `cfg` (70_reset_and_hazards.md R192), with
nothing presented by the host. -/
def State.resetWith (cfg : Config) : State :=
  { cfg := cfg, flt := .none, fop := 0x00#8, inflight := none, response := none, requests := [], resetIn := [], draws := 0 }

/-- The state right after reset, at the configuration `Config.initial` (log entry 1). -/
def State.reset : State :=
  State.resetWith Config.initial

end Sys2Proof.Machine
end

