-- ==== Sys2Proof/Machine/Ops.lean ====
section
/-!
DEFINITION. The operations every meaning and the step share: the ports, delivering a response, recording a fault and leaving
the faulted state (spec/60_exceptions.md R165 to R167), drawing a free value, accepting a request (spec/20_memory.md R44), reset
(spec/70_reset_and_hazards.md R190).
-/

namespace Sys2Proof.Machine

/-! ### Ports -/

/-- STATUS[15:0]: FOP in 15:8, zeros in 7:2, FLT in 1:0 (10_state.md R26). -/
def statusWord (s : State) : BitVec 16 :=
  s.fop ++ 0#6 ++ s.flt.code

/-- The response field FAULT: 0 for a result, else the fault code (10_state.md R24). -/
def faultField : Response → BitVec 2
  | .result _ _ => FaultCode.code .none
  | .fault f => f.code

/-- The result words (R0, R1) of a response; a fault response gives them no value (10_state.md R24, 60_exceptions.md R165). -/
def resultWords : Response → Option (Word × Word)
  | .result r0 r1 => some (r0, r1)
  | .fault _ => none

/-- The packed response RSP[129:0] = FAULT, R1, R0, most significant first; a fault response has no packed value, since its
result words have none (30_encoding.md R61, 93_implementation_defined.md I5). -/
def packResponse (r : Response) : Option (BitVec 130) :=
  match resultWords r with
  | some (r0, r1) => some (faultField r ++ r1 ++ r0)
  | none => none

/-! ### Answering a request -/

/-- Deliver the two result words of the request in flight, which is then answered. The fault latch is not written
(20_memory.md R44, 10_state.md R25). -/
def deliver (r0 r1 : Word) (s : State) : State :=
  { s with inflight := none, response := some (.result r0 r1) }

/-- TAKING A FAULT, the one shared operation: `raise F(i)` of 60_exceptions.md R165. The latch is written only when it holds
NONE, the response carries the code and no words, and nothing else happens. -/
def raise (f : FaultCode) (op : Byte) (s : State) : State :=
  { s with
    flt := if s.flt = .none then f else s.flt
    fop := if s.flt = .none then op else s.fop
    inflight := none
    response := some (.fault f) }

/-- The way back from a fault: there is no return operation, only reset leaves the faulted state (60_exceptions.md R167).
Asserting reset clears the latch and drops a request in flight with no response and no fault; a presented request is
not accepted and stays at the ports; the parameters stand (70_reset_and_hazards.md R190). -/
def applyReset (s : State) : State :=
  { s with flt := .none, fop := 0x00#8, inflight := none, response := none, resetIn := s.resetIn.tail }

/-- The free value that comes next, W bits of it (00_scope.md R16 `draw(W)`). -/
def drawAt (w : Nat) (n : Nat) : BitVec w :=
  (Config.draw n).setWidth w

/-- Deliver two fresh W-bit free values, zero-extended: the response to a quotient overflow without the check
(42_div.md R137). -/
def deliverDraws (w : Nat) (s : State) : State :=
  { s with
    draws := s.draws + 2
    inflight := none
    response := some (.result ((drawAt w s.draws).setWidth 64) ((drawAt w (s.draws + 1)).setWidth 64)) }

/-! ### Around a request -/

/-- The reset input is asserted at this step (70_reset_and_hazards.md R190). -/
def resetAsserted (s : State) : Bool :=
  s.resetIn.headD false

/-- The block is faulted: FLT is not NONE (10_state.md R25). -/
def isFaulted (s : State) : Bool :=
  s.flt != .none

/-- A step without reset begins: this step's level of the reset input is past, and the response ports carry nothing until the
step answers (log entry 5). -/
def beginStep (s : State) : State :=
  { s with response := none, resetIn := s.resetIn.tail }

/-- Accept the presented request: all four ports are sampled together (20_memory.md R44). -/
def accept (r : Request) (rest : List Request) (s : State) : State :=
  { s with inflight := some r, requests := rest }

/-- A faulted block accepts and answers nothing (60_exceptions.md R166). -/
def holdFaulted : Host.Outcome State Fault Refusal :=
  .fault .blockFaulted

/-- A step with no request in flight: with nothing presented the block is idle and holds its latch (60_exceptions.md R177), a
presented request is accepted, and a faulted block accepts none (60_exceptions.md R166). -/
def idleOrAccept (s : State) : Host.Outcome State Fault Refusal :=
  match s.requests with
  | [] => .next s
  | r :: rest => if isFaulted s then holdFaulted else .next (accept r rest s)

/-- A request with a reserved opcode byte reads no operand, computes nothing and raises ILLEGAL_OP (60_exceptions.md R162). -/
def takeIllegalOp (r : Request) (s : State) : Host.Outcome State Fault Refusal :=
  .next (raise .illegalOp r.op s)

end Sys2Proof.Machine
end

