-- ==== Sys2Proof/Machine/Operands.lean ====
section
/-!
DEFINITION. How operand words enter an operation and results leave it (spec/30_encoding.md R65, R66, R68, spec/20_memory.md
R42): the block's only operand form.
-/

namespace Sys2Proof.Machine

/-- The operation width that a width select gives (30_encoding.md R65). -/
def resolveWidth (cfg : Config) : WidthSel → Nat
  | .w32 => Width.bits .w32
  | .w64 => Width.bits .w64
  | .native => cfg.nativeW.bits

/-- An operand read at width W: bits [W-1:0] of its port, the rest ignored (30_encoding.md R66). -/
def operand (w : Nat) (p : Word) : BitVec w :=
  p.setWidth w

/-- A W-bit result leaves zero-extended to the port's 64 bits (30_encoding.md R68). -/
def zext64 {w : Nat} (r : BitVec w) : Word :=
  r.setWidth 64

/-- Deliver two W-bit results (30_encoding.md R68). -/
def deliverPair {w : Nat} (r : BitVec w × BitVec w) (s : State) : Host.Outcome State Fault Refusal :=
  .next (deliver (zext64 r.1) (zext64 r.2) s)

end Sys2Proof.Machine
end

