-- ==== Sys2Proof/Machine/Flags.lean ====
section
/-!
DEFINITION. The carry-out and borrow-out computations. The block has no flag register: a carry or borrow is a result word
(spec/10_state.md R27), and these are the two formulas that give it (spec/40_addsub.md R80, R90).
-/

namespace Sys2Proof.Machine

/-- `carryOut = ((x & y) | ((x | y) & ~sum)) >> (W-1)`, for every carry-in (40_addsub.md R80). -/
def carryOut {w : Nat} (x y sum : BitVec w) : BitVec w :=
  ((x &&& y) ||| ((x ||| y) &&& ~~~sum)) >>> (w - 1)

/-- `borrowOut = ((~x & y) | (~(x ^ y) & difference)) >> (W-1)`, for every borrow-in (40_addsub.md R90). -/
def borrowOut {w : Nat} (x y difference : BitVec w) : BitVec w :=
  ((~~~x &&& y) ||| (~~~(x ^^^ y) &&& difference)) >>> (w - 1)

end Sys2Proof.Machine
end

