-- ==== Sys2Proof/Machine/AddSub.lean ====
section
/-!
DEFINITION. The ADD and SUB families: the core functions and one meaning per opcode (spec/40_addsub.md R80 to R84, R90 to
R94).
-/

namespace Sys2Proof.Machine

/-- AddCore: the sum mod 2^W and its carry-out (40_addsub.md R80). -/
def addCore {w : Nat} (x y carry : BitVec w) : BitVec w × BitVec w :=
  let sum := x + y + carry
  (sum, carryOut x y sum)

/-- SubCore: the difference mod 2^W and its borrow-out (40_addsub.md R90). -/
def subCore {w : Nat} (x y borrow : BitVec w) : BitVec w × BitVec w :=
  let difference := x - y - borrow
  (difference, borrowOut x y difference)

/-- An add at width W (40_addsub.md R82 to R84). -/
def addAt (w : Nat) (x y carry : Word) (s : State) : Host.Outcome State Fault Refusal :=
  deliverPair (addCore (operand w x) (operand w y) (operand w carry)) s

/-- A subtract at width W (40_addsub.md R92 to R94). -/
def subAt (w : Nat) (x y borrow : Word) (s : State) : Host.Outcome State Fault Refusal :=
  deliverPair (subCore (operand w x) (operand w y) (operand w borrow)) s

/-- ADD32 (40_addsub.md R82). -/
def execAdd32 (x y carry : Word) (s : State) : Host.Outcome State Fault Refusal :=
  addAt (resolveWidth s.cfg .w32) x y carry s

/-- ADD64 (40_addsub.md R83). -/
def execAdd64 (x y carry : Word) (s : State) : Host.Outcome State Fault Refusal :=
  addAt (resolveWidth s.cfg .w64) x y carry s

/-- ADD, at NATIVE_W (40_addsub.md R84). -/
def execAdd (x y carry : Word) (s : State) : Host.Outcome State Fault Refusal :=
  addAt (resolveWidth s.cfg .native) x y carry s

/-- SUB32 (40_addsub.md R92). -/
def execSub32 (x y borrow : Word) (s : State) : Host.Outcome State Fault Refusal :=
  subAt (resolveWidth s.cfg .w32) x y borrow s

/-- SUB64 (40_addsub.md R93). -/
def execSub64 (x y borrow : Word) (s : State) : Host.Outcome State Fault Refusal :=
  subAt (resolveWidth s.cfg .w64) x y borrow s

/-- SUB, at NATIVE_W (40_addsub.md R94). -/
def execSub (x y borrow : Word) (s : State) : Host.Outcome State Fault Refusal :=
  subAt (resolveWidth s.cfg .native) x y borrow s

end Sys2Proof.Machine
end

