-- ==== Sys2Proof/Machine/Div.lean ====
section
/-!
DEFINITION. The DIV family: the core function with its three input classes and one meaning per opcode (spec/42_div.md R130
to R137).
-/

namespace Sys2Proof.Machine

/-- What the divide core answers: one of the three input classes of 42_div.md R130. -/
inductive DivAnswer (w : Nat) where
  /-- x = 0 (42_div.md R135) -/
  | divByZero
  /-- x ≠ 0 and hi ≥ x (42_div.md R137) -/
  | overflow
  /-- x ≠ 0 and hi < x (42_div.md R134) -/
  | result (quo rem : BitVec w)
  deriving DecidableEq, Repr

/-- DivCore: the tests run in the order shown (42_div.md R130). -/
def divCore {w : Nat} (hi lo x : BitVec w) : DivAnswer w :=
  let z := hi.toNat * 2 ^ w + lo.toNat
  if x = 0 then .divByZero
  else if x ≤ hi then .overflow
  else .result (BitVec.ofNat w (z / x.toNat)) (BitVec.ofNat w (z % x.toNat))

/-- QuotientOverflow(W): a fault with the check, two free values without it (42_div.md R137, 60_exceptions.md R163). -/
def quotientOverflow (w : Nat) (op : Byte) (s : State) : Host.Outcome State Fault Refusal :=
  if s.cfg.divOvfCheck then .next (raise .quotientOverflow op s) else .next (deliverDraws w s)

/-- A divide at width W of the request whose opcode byte is `op`, which a fault records (42_div.md R131 to R133, R135). -/
def divAt (w : Nat) (op : Byte) (hi lo x : Word) (s : State) : Host.Outcome State Fault Refusal :=
  match divCore (operand w hi) (operand w lo) (operand w x) with
  | .divByZero => .next (raise .divByZero op s)
  | .overflow => quotientOverflow w op s
  | .result quo rem => deliverPair (quo, rem) s

/-- DIV32 (42_div.md R131). -/
def execDiv32 (hi lo x : Word) (s : State) : Host.Outcome State Fault Refusal :=
  divAt (resolveWidth s.cfg .w32) (opcodeByte .div .w32) hi lo x s

/-- DIV64 (42_div.md R132). -/
def execDiv64 (hi lo x : Word) (s : State) : Host.Outcome State Fault Refusal :=
  divAt (resolveWidth s.cfg .w64) (opcodeByte .div .w64) hi lo x s

/-- DIV, at NATIVE_W; a fault records the byte actually sent (42_div.md R133, 30_encoding.md R65). -/
def execDiv (hi lo x : Word) (s : State) : Host.Outcome State Fault Refusal :=
  divAt (resolveWidth s.cfg .native) (opcodeByte .div .native) hi lo x s

end Sys2Proof.Machine
end

