-- ==== Sys2Proof/Machine/Mul.lean ====
section
/-!
DEFINITION. The MUL family: the core function and one meaning per opcode (spec/41_mul.md R110 to R113). C is not read.
-/

namespace Sys2Proof.Machine

/-- MulCore: the exact 2W-bit product, split into its halves (41_mul.md R110). -/
def mulCore {w : Nat} (x y : BitVec w) : BitVec w × BitVec w :=
  let p := x.toNat * y.toNat
  (BitVec.ofNat w (p / 2 ^ w), BitVec.ofNat w (p % 2 ^ w))

/-- A multiply at width W (41_mul.md R111 to R113). -/
def mulAt (w : Nat) (x y : Word) (s : State) : Host.Outcome State Fault Refusal :=
  deliverPair (mulCore (operand w x) (operand w y)) s

/-- MUL32 (41_mul.md R111). -/
def execMul32 (x y _c : Word) (s : State) : Host.Outcome State Fault Refusal :=
  mulAt (resolveWidth s.cfg .w32) x y s

/-- MUL64 (41_mul.md R112). -/
def execMul64 (x y _c : Word) (s : State) : Host.Outcome State Fault Refusal :=
  mulAt (resolveWidth s.cfg .w64) x y s

/-- MUL, at NATIVE_W (41_mul.md R113). -/
def execMul (x y _c : Word) (s : State) : Host.Outcome State Fault Refusal :=
  mulAt (resolveWidth s.cfg .native) x y s

end Sys2Proof.Machine
end

