-- ==== Sys2Proof/Machine/Dispatch.lean ====
section
/-!
DEFINITION. One arm per instruction, each one call of that instruction's meaning.
-/

namespace Sys2Proof.Machine

def exec (i : Instr) (s : State) : Host.Outcome State Fault Refusal :=
  match i with
  | .add32 x y carry => Sys2Proof.Machine.execAdd32 x y carry s
  | .sub32 x y borrow => Sys2Proof.Machine.execSub32 x y borrow s
  | .mul32 x y c => Sys2Proof.Machine.execMul32 x y c s
  | .div32 hi lo x => Sys2Proof.Machine.execDiv32 hi lo x s
  | .add64 x y carry => Sys2Proof.Machine.execAdd64 x y carry s
  | .sub64 x y borrow => Sys2Proof.Machine.execSub64 x y borrow s
  | .mul64 x y c => Sys2Proof.Machine.execMul64 x y c s
  | .div64 hi lo x => Sys2Proof.Machine.execDiv64 hi lo x s
  | .add x y carry => Sys2Proof.Machine.execAdd x y carry s
  | .sub x y borrow => Sys2Proof.Machine.execSub x y borrow s
  | .mul x y c => Sys2Proof.Machine.execMul x y c s
  | .div hi lo x => Sys2Proof.Machine.execDiv hi lo x s

end Sys2Proof.Machine
end

