-- ==== Sys2Proof/Machine/Step.lean ====
section
/-!
DEFINITION. One step of one block (spec/60_exceptions.md R165, R166, R178): reset if it is asserted; else the request in
flight is decoded, executed and answered; else the presented request is accepted.
-/

namespace Sys2Proof.Machine

/-- One step. The two halves of R178's transaction are two steps, accepting (`idleOrAccept`) and answering, so that reset can
find a request in flight (70_reset_and_hazards.md R190; log entry 7). -/
def step (s : State) : Host.Outcome State Fault Refusal :=
  if resetAsserted s then .next (applyReset s)
  else match s.inflight with
    | none => idleOrAccept (beginStep s)
    | some r =>
      if isFaulted s then holdFaulted
      else match decodeRequest r with
        | .error _ => takeIllegalOp r (beginStep s)
        | .ok i => exec i (beginStep s)

/-- The opcode-table word `w` of `nbits` bits (operand words above it 0) placed where the next step takes its instruction: in
flight, in an unfaulted block whose reset is released (log entry 8). -/
def State.withFetchWord (s : State) (nbits w : Nat) : State :=
  { s with inflight := some (tableRequest nbits w), flt := .none, fop := 0x00#8, resetIn := [] }

end Sys2Proof.Machine
end

