-- ==== Sys2Proof/Machine/Assembler.lean ====
section
/-!
DEFINITION. The text of one written request (spec/30_encoding.md R72): its tokens, its operands, the host names it binds. What
an operation with given operand values stands for is `assembleLine` (Decode.lean). The names are the host's storage, not the
block's. Where R72 does not fix the text (what separates tokens, which characters a name has, a literal above 64 bits), log
entry 9 says what this reads.
-/

namespace Sys2Proof.Machine

/-- A token of a line. -/
inductive Token where
  | word (chars : List Char)
  | comma
  | arrow
  deriving DecidableEq, Repr

/-- Host names and the words they are bound to, the latest first (30_encoding.md R72). -/
abbrev HostNames := List (List Char × Word)

/-- A line read: its request, and the names for R0 and R1, which may be omitted (30_encoding.md R72). -/
structure AssembledLine where
  instr : Instr
  results : Option (List Char × List Char)
  deriving DecidableEq, Repr

/-- The word gathered so far (last character first) goes before the tokens that follow. -/
def endWord (gathered : List Char) (rest : List Token) : List Token :=
  match gathered with
  | [] => rest
  | c :: cs => .word (c :: cs).reverse :: rest

/-- The tokens of a line; `;` starts a comment (30_encoding.md R72). -/
def tokens : List Char → List Char → List Token
  | [], gathered => endWord gathered []
  | '-' :: '>' :: rest, gathered => endWord gathered (.arrow :: tokens rest [])
  | c :: rest, gathered =>
    if c = ';' then endWord gathered []
    else if c = ',' then endWord gathered (.comma :: tokens rest [])
    else if c.isWhitespace then endWord gathered (tokens rest [])
    else tokens rest (c :: gathered)

/-- The value of a digit below `base`. -/
def digitValue (base : Nat) (c : Char) : Option Nat :=
  let v :=
    if c.isDigit then some (c.toNat - '0'.toNat)
    else if 'a' ≤ c ∧ c ≤ 'f' then some (c.toNat - 'a'.toNat + 10)
    else if 'A' ≤ c ∧ c ≤ 'F' then some (c.toNat - 'A'.toNat + 10)
    else none
  v.filter (· < base)

/-- The value of a string of digits after those worth `high`; none at a character that is no digit. -/
def digitsValue (base : Nat) : Nat → List Char → Option Nat
  | high, [] => some high
  | high, c :: cs =>
    match digitValue base c with
    | some d => digitsValue base (high * base + d) cs
    | none => none

/-- A decimal literal, or a `0x` hex literal (30_encoding.md R72). -/
def literalValue : List Char → Option Nat
  | [] => none
  | '0' :: 'x' :: c :: cs => digitsValue 16 0 (c :: cs)
  | c :: cs => digitsValue 10 0 (c :: cs)

/-- The value of a written operand: a literal of at most 64 bits, or a host name that is bound (30_encoding.md R72). -/
def operandValue (names : HostNames) (chars : List Char) : Option Word :=
  match literalValue chars with
  | some n => if n < 2 ^ 64 then some (BitVec.ofNat 64 n) else none
  | none => names.lookup chars

/-- Characters that are one word wherever they stand in a line: none of them separates tokens, begins a comment or could begin
an arrow. -/
def isWordText (chars : List Char) : Bool :=
  !chars.isEmpty && chars.all fun c => c != ';' && c != ',' && c != '-' && !c.isWhitespace

/-- The operands, separated by commas, and the tokens after them. -/
def operandValues (names : HostNames) : List Token → Option (List Word × List Token)
  | .word a :: .comma :: rest =>
    match operandValue names a, operandValues names rest with
    | some v, some (vs, after) => some (v :: vs, after)
    | _, _ => none
  | .word a :: rest => (operandValue names a).map fun v => ([v], rest)
  | _ => none

/-- `-> r0, r1`, or nothing (30_encoding.md R72). DESIGN CHOICE (log entry 14): any word after the arrow is a name to bind, a
literal too (R72 calls `r0` and `r1` host names, and writes the source's call as `-> 3, 1`). A literal bound so is never found
again, since `operandValue` reads it as its own value. -/
def resultNames : List Token → Option (Option (List Char × List Char))
  | [] => some none
  | [.arrow, .word r0, .comma, .word r1] => some (some (r0, r1))
  | _ => none

/-- A line of the form `MNEMONIC a, b, c -> r0, r1`, two operands for a MUL (30_encoding.md R72). -/
def assembleTokens (names : HostNames) : List Token → Option AssembledLine
  | .word m :: rest =>
    match operandValues names rest with
    | none => none
    | some (values, after) =>
      match assembleLine (String.ofList m) values, resultNames after with
      | some i, some results => some { instr := i, results := results }
      | _, _ => none
  | _ => none

/-- Read one line (30_encoding.md R72). -/
def assembleText (names : HostNames) (line : List Char) : Option AssembledLine :=
  assembleTokens names (tokens line [])

/-- The host names that a response binds; a fault response has no words to bind (30_encoding.md R72, 60_exceptions.md R165).
DESIGN CHOICE (log entry 15): where both results of a line have the same name, it holds R0, which is found first. -/
def bindResults (line : AssembledLine) (answer : Response) (names : HostNames) : HostNames :=
  match line.results, resultWords answer with
  | some (n0, n1), some (r0, r1) => (n0, r0) :: (n1, r1) :: names
  | _, _ => names

end Sys2Proof.Machine
end

