-- ==== Sys2Proof/Machine/Datapath.lean ====
section
/-!
DEFINITION. The datapaths the spec describes: the double-length adder and subtractor (spec/40_addsub.md R85, R95), the direct
and the partial-product multiplier (spec/41_mul.md R114, R115), the direct divider and Knuth's Algorithm D (spec/42_div.md R138
to R145). They are not architectural (R118, R149; log entry 13): the meanings use the core functions, and statements say where a
datapath's answer is the core's. Values are exact integers as 00_scope.md R13 has them, reduced where a rule says so.
-/

namespace Sys2Proof.Machine

/-! ### Adder and subtractor -/

/-- AddDouble: the low halves with the carry, then the high halves with the one carry bit between them (40_addsub.md R85). A
datapath that passes only the low half of the carry answers this, so it equals the core for carry ∈ {0, 1} only. -/
def addDouble (x y carry : BitVec 64) : BitVec 64 × BitVec 64 :=
  let low := addCore (x.extractLsb' 0 32) (y.extractLsb' 0 32) (carry.extractLsb' 0 32)
  let high := addCore (x.extractLsb' 32 32) (y.extractLsb' 32 32) low.2
  (high.1 ++ low.1, high.2.setWidth 64)

/-- SubDouble: the same for the subtractor (40_addsub.md R95). -/
def subDouble (x y borrow : BitVec 64) : BitVec 64 × BitVec 64 :=
  let low := subCore (x.extractLsb' 0 32) (y.extractLsb' 0 32) (borrow.extractLsb' 0 32)
  let high := subCore (x.extractLsb' 32 32) (y.extractLsb' 32 32) low.2
  (high.1 ++ low.1, high.2.setWidth 64)

/-! ### Multiplier -/

/-- MulDirect: one 2W-bit multiplication, split (41_mul.md R114). -/
def mulDirect {w : Nat} (x y : BitVec w) : BitVec w × BitVec w :=
  let p := x.setWidth (2 * w) * y.setWidth (2 * w)
  (p.extractLsb' w w, p.extractLsb' 0 w)

/-- The intermediates and the two halves of the partial-product datapath, before any reduction (41_mul.md R115). -/
structure MulTrace where
  t : Nat
  m1 : Nat
  m2 : Nat
  hi : Nat
  lo : Nat
  deriving DecidableEq, Repr

/-- MulPartial over exact integers: four half-width products and their carries (41_mul.md R115). `lo` is the spec's
`((m2 & mask) << h) | (t & mask)`. -/
def mulPartial (w x y : Nat) : MulTrace :=
  let h := w / 2
  let mask := 2 ^ h - 1
  let xlo := x &&& mask
  let xhi := x >>> h
  let ylo := y &&& mask
  let yhi := y >>> h
  let t := xlo * ylo
  let m1 := xhi * ylo + (t >>> h)
  let m2 := xlo * yhi + (m1 &&& mask)
  { t := t, m1 := m1, m2 := m2
    hi := xhi * yhi + (m1 >>> h) + (m2 >>> h)
    lo := ((m2 &&& mask) <<< h) ||| (t &&& mask) }

/-! ### Divider -/

/-- DivDirect: one 2W-by-W-bit division; the quotient is reduced to W bits (42_div.md R138). -/
def divDirect (w hi lo x : Nat) : Nat × Nat :=
  let z := hi * 2 ^ w + lo
  ((z / x) % 2 ^ w, z % x)

/-- The number of leading zero bits of `x` in `w` bits (42_div.md R140). -/
def leadingZeros : Nat → Nat → Nat
  | 0, _ => 0
  | w + 1, x => if x.testBit w then 0 else leadingZeros w x + 1

/-- The normalized operands of Algorithm D (42_div.md R140, R141). -/
structure DivNormal where
  s : Nat
  xn : Nat
  un32 : Nat
  un10 : Nat
  xhi : Nat
  xlo : Nat
  un1 : Nat
  un0 : Nat
  deriving DecidableEq, Repr

/-- Steps 1 and 2: normalize, then split into half-digits (42_div.md R140, R141). A shift left is reduced to W bits, and
`lo >> (W - s)` is 0 when s = 0 (00_scope.md R14). -/
def divNormalize (w hi lo x : Nat) : DivNormal :=
  let h := w / 2
  let b := 2 ^ h
  let s := leadingZeros w x
  let xn := (x <<< s) % 2 ^ w
  let un10 := (lo <<< s) % 2 ^ w
  { s := s, xn := xn
    un32 := ((hi <<< s) % 2 ^ w) ||| (lo >>> (w - s))
    un10 := un10
    xhi := xn >>> h
    xlo := xn &&& (b - 1)
    un1 := un10 >>> h
    un0 := un10 &&& (b - 1) }

/-- What a correction loop leaves: the digit, the running remainder estimate, and how many bodies it ran. -/
structure DigitTrace where
  q : Nat
  rhat : Nat
  bodies : Nat
  deriving DecidableEq, Repr

/-- The correction loop of 42_div.md R142 and R144: the condition is tested before each body, the `rhat >= b` exit after it.
`fuel` bounds the bodies so that the function is total; that two suffice is R147, a statement. -/
def correctDigit (b xhi xlo un : Nat) : Nat → Nat → Nat → DigitTrace
  | 0, q, rhat => { q := q, rhat := rhat, bodies := 0 }
  | fuel + 1, q, rhat =>
    if q ≥ b ∨ q * xlo > b * rhat + un then
      if rhat + xhi ≥ b then { q := q - 1, rhat := rhat + xhi, bodies := 1 }
      else
        let rest := correctDigit b xhi xlo un fuel (q - 1) (rhat + xhi)
        { rest with bodies := rest.bodies + 1 }
    else { q := q, rhat := rhat, bodies := 0 }

/-- The fuel of a correction loop: one body more than the two that R147 allows, so that the bound is a fact about the loop and
not about its fuel. -/
def loopFuel : Nat := 3

/-- Steps 3 and 4b: the trial digit of `top` by `xhi`, corrected against the next piece `un` (42_div.md R142, R144). -/
def divDigit (b xhi xlo top un : Nat) : DigitTrace :=
  correctDigit b xhi xlo un loopFuel (top / xhi) (top - top / xhi * xhi)

/-- `(top * b + un - q * xn) mod 2^W`, the partial remainder: the exact value may be negative on overflow inputs
(42_div.md R143, R145). -/
def partialRemainder (w b top un q xn : Nat) : Nat :=
  (((top * b + un : Nat) - (q * xn : Nat) : Int) % (2 ^ w : Nat)).toNat

/-- The intermediates and the answer of Algorithm D. -/
structure DivTrace where
  normal : DivNormal
  first : DigitTrace
  un21 : Nat
  second : DigitTrace
  quo : Nat
  rem : Nat
  deriving DecidableEq, Repr

/-- Algorithm D on two digits by one, for x ≠ 0 (42_div.md R139 to R145). -/
def algorithmD (w hi lo x : Nat) : DivTrace :=
  let b := 2 ^ (w / 2)
  let n := divNormalize w hi lo x
  let first := divDigit b n.xhi n.xlo n.un32 n.un1
  let un21 := partialRemainder w b n.un32 n.un1 first.q n.xn
  let second := divDigit b n.xhi n.xlo un21 n.un0
  { normal := n, first := first, un21 := un21, second := second
    quo := (first.q * b + second.q) % 2 ^ w
    rem := partialRemainder w b un21 n.un0 second.q n.xn >>> n.s }

end Sys2Proof.Machine
end

