-- ==== Sys2Proof/Machine/System.lean ====
section
/-!
DEFINITION. Several instances of the block in one system (spec/20_memory.md R48, spec/60_exceptions.md R175): a list of
states, each stepping alone. They have no identifiers of their own and send each other nothing (log entry 10).
-/

namespace Sys2Proof.Machine

/-- Instance `k` of a system takes one step; none where there is no such instance or its step stops. -/
def systemStep (k : Nat) (sys : List State) : Option (List State) :=
  match sys[k]? with
  | none => none
  | some s =>
    match step s with
    | .next t => some (sys.set k t)
    | .fault _ => none
    | .refused _ => none

/-- Every instance holds the reset values of 70_reset_and_hazards.md R192: they start together at reset (60_exceptions.md
R175). Their configurations, their hosts and their counts of free values may differ. -/
def systemAtReset (sys : List State) : Prop :=
  ∀ s ∈ sys, s.flt = .none ∧ s.fop = 0x00#8 ∧ s.inflight = none ∧ s.response = none

end Sys2Proof.Machine
end

