-- ==== Sys2Proof/Safety.lean ====
section
/-!
DEFINITION. What counts as a safe run of the block, and the terms the statements use: the invariant of the state, the rules'
formulas over exact integers (spec/00_scope.md R13), the host's obligations (spec/70_reset_and_hazards.md R196), and the
host's side of a carry chain (spec/40_addsub.md R87, R97).
-/

namespace Sys2Proof.Safety

open Sys2Proof.Machine

/-! ### The state -/

/-- The invariant of the block: FOP is 0x00 while FLT is NONE (10_state.md R26), only an unfaulted block has a request in
flight (60_exceptions.md R166), a step that leaves a request in flight delivered no response (20_memory.md R44), a
response that carries a fault leaves the latch holding that fault (60_exceptions.md R165), and after a response with result
words the block is unfaulted (60_exceptions.md R166). -/
structure Inv (s : State) : Prop where
  fop_zero : s.flt = .none → s.fop = 0x00#8
  inflight_unfaulted : s.inflight.isSome → s.flt = .none
  inflight_no_response : s.inflight.isSome → s.response = none
  fault_latched : ∀ f, s.response = some (.fault f) → f ≠ .none ∧ s.flt = f
  result_unfaulted : ∀ r0 r1, s.response = some (.result r0 r1) → s.flt = .none

/-- The state after an answer with result words of these values: everything but the request and the response stays. -/
def answered (s : State) (r0 r1 : Nat) : State :=
  { s with inflight := none, response := some (.result (BitVec.ofNat 64 r0) (BitVec.ofNat 64 r1)) }

/-- The state after an unfaulted block records a fault (60_exceptions.md R165). -/
def recorded (s : State) (f : FaultCode) (op : Byte) : State :=
  { s with flt := f, fop := op, inflight := none, response := some (.fault f) }

/-- The response an outcome carries. -/
def responseOf : Host.Outcome State Fault Refusal → Option Response
  | .next t => t.response
  | .fault _ => none
  | .refused _ => none

/-- The response of a request executed in a state. -/
def answerOf (s : State) (r : Request) : Option Response :=
  match decodeRequest r with
  | .ok i => responseOf (exec i s)
  | .error _ => some (.fault .illegalOp)

/-- The responses to a list of requests executed one after the other, each in the state that the one before left, up to and
with the first fault: after it no request is accepted (20_memory.md R47). -/
def answersInOrder : List Request → State → List Response
  | [], _ => []
  | r :: rest, s =>
    match decodeRequest r with
    | .error _ => [.fault .illegalOp]
    | .ok i =>
      match exec i s with
      | .next t =>
        match t.response with
        | some (.result r0 r1) => .result r0 r1 :: answersInOrder rest t
        | some (.fault f) => [.fault f]
        | none => []
      | .fault _ => []
      | .refused _ => []

/-- The responses delivered in the next `k` steps, in order, up to a stop. -/
def responsesOver : Nat → State → List Response
  | 0, _ => []
  | k + 1, s =>
    match step s with
    | .next t => t.response.toList ++ responsesOver k t
    | .fault _ => []
    | .refused _ => []

/-! ### The rules' formulas over exact integers -/

/-- Bits [W-1:0] of a port, as an integer (30_encoding.md R66). -/
def low (w : Nat) (p : Word) : Nat :=
  p.toNat % 2 ^ w

/-- `sum = (x + y + carry) mod 2^W` (40_addsub.md R80). -/
def sumOf (w x y carry : Nat) : Nat :=
  (x + y + carry) % 2 ^ w

/-- `((x & y) | ((x | y) & ~sum)) >> (W-1)`, with `~v` = 2^W - 1 - v (40_addsub.md R80, 00_scope.md R14). -/
def carryOutOf (w x y carry : Nat) : Nat :=
  ((x &&& y) ||| ((x ||| y) &&& (2 ^ w - 1 - sumOf w x y carry))) >>> (w - 1)

/-- `difference = (x - y - borrow) mod 2^W`, the exact difference possibly negative (40_addsub.md R90). -/
def differenceOf (w x y borrow : Nat) : Nat :=
  (((x : Int) - y - borrow) % (2 ^ w : Nat)).toNat

/-- `((~x & y) | (~(x ^ y) & difference)) >> (W-1)` (40_addsub.md R90, 00_scope.md R14). -/
def borrowOutOf (w x y borrow : Nat) : Nat :=
  (((2 ^ w - 1 - x) &&& y) ||| ((2 ^ w - 1 - (x ^^^ y)) &&& differenceOf w x y borrow)) >>> (w - 1)

/-- The value of a number written as W-bit words, least significant word first (40_addsub.md R87). -/
def wordsValue (w : Nat) : List Nat → Nat
  | [] => 0
  | x :: xs => x + 2 ^ w * wordsValue w xs

/-- The host's carry or borrow chain: one request per pair of words, least significant first, each taking R1 of the one
before as its C. It gives the R0 words and the last R1; none where a request is not answered with result words
(40_addsub.md R87, R97). -/
def chain (request : Word → Word → Word → Instr) : List (Word × Word) → Word → State → Option (List Word × Word)
  | [], c, _ => some ([], c)
  | (x, y) :: rest, c, s =>
    match exec (request x y c) s with
    | .next t =>
      match t.response with
      | some (.result r0 r1) => (chain request rest r1 t).map fun p => (r0 :: p.1, p.2)
      | some (.fault _) => none
      | none => none
    | .fault _ => none
    | .refused _ => none

/-! ### The host's obligations -/

/-- The host keeps the obligations of 70_reset_and_hazards.md R196 for this request, at width W: a carry or borrow in {0, 1},
a divisor that is not zero, and hi below the divisor. -/
def meetsObligations (cfg : Config) (i : Instr) : Bool :=
  let w := resolveWidth cfg i.widthSel
  let a := low w i.operands.1
  let c := low w i.operands.2.2
  match i.family with
  | .add | .sub => c ≤ 1
  | .mul => true
  | .div => c ≠ 0 && a < c

/-- The request is a divide whose quotient overflows: x ≠ 0 and hi ≥ x (42_div.md R137). -/
def overflows (cfg : Config) (i : Instr) : Bool :=
  let w := resolveWidth cfg i.widthSel
  let a := low w i.operands.1
  let c := low w i.operands.2.2
  match i.family with
  | .add | .sub | .mul => false
  | .div => c ≠ 0 && c ≤ a

end Sys2Proof.Safety
end

