-- ==== Sys2Proof/Certificates/Slice0/Obligations.lean ====
section
/-!
DEFINITION. The statements for the provers. Each docstring says which rule of spec/ it formalises, or which sections it rests
on. `low w p` is bits [W-1:0] of a port as an integer, `answered s r0 r1` is `s` with the request answered by these result
words and nothing else changed, `recorded s f op` is `s` with the fault `f` recorded for opcode byte `op` and nothing else
changed (Safety.lean).
-/

open Sys2Proof Sys2Proof.Machine Sys2Proof.Safety

/-! ### Addition (spec/40_addsub.md) -/

/-- R80, for ADD32, ADD64 and ADD (R82 to R84): for every carry, wide ones too, the response is the sum mod 2^W and the
formula's carry-out, and nothing else changes. -/
def Obligations.AddAnswersSumAndCarryOut : Prop :=
  ∀ (x y carry : Word) (s : State),
    let after := fun w : Nat => answered s (sumOf w (low w x) (low w y) (low w carry))
      (carryOutOf w (low w x) (low w y) (low w carry))
    exec (.add32 x y carry) s = .next (after 32) ∧
    exec (.add64 x y carry) s = .next (after 64) ∧
    exec (.add x y carry) s = .next (after s.cfg.nativeW.bits)

/-- R81: for a carry in {0, 1} the response is the exact sum of the W-bit operands, carryOut is 1 exactly when it overflows, `k`
is the carry into bit W-1, and carryOut is the majority of the two top bits and `k`. -/
def Obligations.AddExactLaw : Prop :=
  ∀ (wsel : WidthSel) (x y carry : Word) (s : State),
    let w := resolveWidth s.cfg wsel
    low w carry ≤ 1 →
    ∃ sum carryOut : Word,
      exec (buildInstr .add wsel x y carry) s = .next (answered s sum.toNat carryOut.toNat) ∧
      sum.toNat < 2 ^ w ∧
      carryOut.toNat * 2 ^ w + sum.toNat = low w x + low w y + low w carry ∧
      (carryOut.toNat = 1 ↔ 2 ^ w ≤ low w x + low w y + low w carry) ∧
      (let xTop := x.getLsbD (w - 1)
       let yTop := y.getLsbD (w - 1)
       let k := decide (2 ^ (w - 1) ≤ low (w - 1) x + low (w - 1) y + low w carry)
       k = (sum.getLsbD (w - 1) ^^ xTop ^^ yTop) ∧
       carryOut.toNat = ((xTop && yTop) || (xTop && k) || (yTop && k)).toNat)

/-- R86: for every input, R1 of an ADD response is 0 or 1. -/
def Obligations.AddCarryOutIsOneBit : Prop :=
  ∀ (wsel : WidthSel) (x y carry : Word) (s : State),
    ∃ r0 r1 : Word, exec (buildInstr .add wsel x y carry) s = .next (answered s r0.toNat r1.toNat) ∧
      (r1 = 0 ∨ r1 = 1)

/-- R87: a chain of adds, each taking R1 of the one before as its carry, adds two k-word numbers, and the last R1 says whether
the sum reaches 2^(kW). -/
def Obligations.AddCarryChainAddsWordLists : Prop :=
  ∀ (wsel : WidthSel) (s : State) (words : List (Word × Word)) (c0 : Word),
    let w := resolveWidth s.cfg wsel
    let x := wordsValue w (words.map fun p => low w p.1)
    let y := wordsValue w (words.map fun p => low w p.2)
    words ≠ [] → low w c0 ≤ 1 →
    ∃ (sums : List Word) (last : Word),
      chain (buildInstr .add wsel) words c0 s = some (sums, last) ∧
      sums.length = words.length ∧
      wordsValue w (sums.map fun r => r.toNat) = (x + y + low w c0) % 2 ^ (words.length * w) ∧
      (last.toNat = 1 ↔ 2 ^ (words.length * w) ≤ x + y + low w c0)

/-- R85: the double-length adder equals the 64-bit core for a carry in {0, 1}; for the wide carry of R85's own example, passing
the low half of the carry only, it does not. -/
def Obligations.AddDoubleEqualsAddCore : Prop :=
  (∀ x y carry : Word, carry = 0 ∨ carry = 1 → addDouble x y carry = addCore x y carry) ∧
  addDouble 0xFFFFFFFF#64 0#64 0x100000000#64 = (0xFFFFFFFF#64, 0#64) ∧
  addCore 0xFFFFFFFF#64 0#64 0x100000000#64 = (0x1FFFFFFFF#64, 0#64)

/-! ### Subtraction (spec/40_addsub.md) -/

/-- R90, for SUB32, SUB64 and SUB (R92 to R94): for every borrow, wide ones too, the response is the difference mod 2^W and the
formula's borrow-out, and nothing else changes. -/
def Obligations.SubAnswersDifferenceAndBorrowOut : Prop :=
  ∀ (x y borrow : Word) (s : State),
    let after := fun w : Nat => answered s (differenceOf w (low w x) (low w y) (low w borrow))
      (borrowOutOf w (low w x) (low w y) (low w borrow))
    exec (.sub32 x y borrow) s = .next (after 32) ∧
    exec (.sub64 x y borrow) s = .next (after 64) ∧
    exec (.sub x y borrow) s = .next (after s.cfg.nativeW.bits)

/-- R91: for a borrow in {0, 1} the response is the exact difference, and borrowOut is 1 exactly when x < y + borrow. -/
def Obligations.SubExactLaw : Prop :=
  ∀ (wsel : WidthSel) (x y borrow : Word) (s : State),
    let w := resolveWidth s.cfg wsel
    low w borrow ≤ 1 →
    ∃ difference borrowOut : Word,
      exec (buildInstr .sub wsel x y borrow) s = .next (answered s difference.toNat borrowOut.toNat) ∧
      difference.toNat < 2 ^ w ∧
      (difference.toNat : Int) - borrowOut.toNat * 2 ^ w = (low w x : Int) - low w y - low w borrow ∧
      (borrowOut.toNat = 1 ↔ low w x < low w y + low w borrow)

/-- R96: for every input, R1 of a SUB response is 0 or 1. -/
def Obligations.SubBorrowOutIsOneBit : Prop :=
  ∀ (wsel : WidthSel) (x y borrow : Word) (s : State),
    ∃ r0 r1 : Word, exec (buildInstr .sub wsel x y borrow) s = .next (answered s r0.toNat r1.toNat) ∧
      (r1 = 0 ∨ r1 = 1)

/-- R97: a chain of subtracts, each taking R1 of the one before as its borrow, subtracts two k-word numbers, and the last R1
says whether X < Y + b0. -/
def Obligations.SubBorrowChainSubtractsWordLists : Prop :=
  ∀ (wsel : WidthSel) (s : State) (words : List (Word × Word)) (b0 : Word),
    let w := resolveWidth s.cfg wsel
    let x := wordsValue w (words.map fun p => low w p.1)
    let y := wordsValue w (words.map fun p => low w p.2)
    words ≠ [] → low w b0 ≤ 1 →
    ∃ (differences : List Word) (last : Word),
      chain (buildInstr .sub wsel) words b0 s = some (differences, last) ∧
      differences.length = words.length ∧
      (wordsValue w (differences.map fun r => r.toNat) : Int) =
        ((x : Int) - y - low w b0) % (2 ^ (words.length * w) : Nat) ∧
      (last.toNat = 1 ↔ x < y + low w b0)

/-- R95: the double-length subtractor equals the 64-bit core for a borrow in {0, 1}. -/
def Obligations.SubDoubleEqualsSubCore : Prop :=
  ∀ x y borrow : Word, borrow = 0 ∨ borrow = 1 → subDouble x y borrow = subCore x y borrow

/-! ### Multiplication (spec/41_mul.md) -/

/-- R110, for MUL32, MUL64 and MUL (R111 to R113): the response is the exact product of the W-bit operands, split into its
halves, and nothing else changes. -/
def Obligations.MulAnswersExactProduct : Prop :=
  ∀ (x y c : Word) (s : State),
    let after := fun w : Nat => answered s (low w x * low w y / 2 ^ w) (low w x * low w y % 2 ^ w)
    exec (.mul32 x y c) s = .next (after 32) ∧
    exec (.mul64 x y c) s = .next (after 64) ∧
    exec (.mul x y c) s = .next (after s.cfg.nativeW.bits)

/-- R116: hi ≤ 2^W - 2, with equality only at x = y = 2^W - 1, where lo = 1; hi is below a non-zero operand. -/
def Obligations.MulProductBounds : Prop :=
  ∀ (wsel : WidthSel) (x y c : Word) (s : State),
    let w := resolveWidth s.cfg wsel
    ∃ hi lo : Word,
      exec (buildInstr .mul wsel x y c) s = .next (answered s hi.toNat lo.toNat) ∧
      hi.toNat ≤ 2 ^ w - 2 ∧
      (hi.toNat = 2 ^ w - 2 ↔ low w x = 2 ^ w - 1 ∧ low w y = 2 ^ w - 1) ∧
      (hi.toNat = 2 ^ w - 2 → lo.toNat = 1) ∧
      (1 ≤ low w y → hi.toNat < low w y) ∧
      (1 ≤ low w x → hi.toNat < low w x)

/-- R117: a MUL answers with result words in every state and leaves the latch alone, and its response depends on nothing but x
and y (and NATIVE_W for MUL): not on C, which no MUL reads, and not on the state. -/
def Obligations.MulFaultsNeverAndReadsNoState : Prop :=
  ∀ (wsel : WidthSel) (x y c c' : Word) (s s' : State), s.cfg.nativeW = s'.cfg.nativeW →
    ∃ (r0 r1 : Word) (t t' : State),
      exec (buildInstr .mul wsel x y c) s = .next t ∧
      exec (buildInstr .mul wsel x y c') s' = .next t' ∧
      t.response = some (.result r0 r1) ∧ t'.response = some (.result r0 r1) ∧
      t.flt = s.flt ∧ t.fop = s.fop ∧ t'.flt = s'.flt ∧ t'.fop = s'.fop

/-- R115: on W-bit operands every intermediate of the partial-product datapath fits in W bits, its middle sums are at most
2^W - 2^h, and its halves are MulCore's. -/
def Obligations.MulPartialEqualsMulCore : Prop :=
  ∀ (width : Width) (x y : BitVec width.bits),
    let w := width.bits
    let p := mulPartial w x.toNat y.toNat
    p.t < 2 ^ w ∧ p.m1 ≤ 2 ^ w - 2 ^ (w / 2) ∧ p.m2 ≤ 2 ^ w - 2 ^ (w / 2) ∧ p.hi < 2 ^ w ∧ p.lo < 2 ^ w ∧
    mulCore x y = (BitVec.ofNat w p.hi, BitVec.ofNat w p.lo)

/-- R114: the direct datapath equals MulCore for every input. -/
def Obligations.MulDirectEqualsMulCore : Prop :=
  ∀ (width : Width) (x y : BitVec width.bits), mulDirect x y = mulCore x y

/-! ### Division (spec/42_div.md) -/

/-- R134, for DIV32, DIV64 and DIV (R131 to R133): on a valid input (x ≠ 0 and hi < x) the response is the one W-bit pair that
satisfies the divide law, and nothing else changes. -/
def Obligations.DivAnswersQuotientAndRemainder : Prop :=
  ∀ (hi lo x : Word) (s : State),
    let law := fun (w : Nat) (quo rem : Word) =>
      quo.toNat < 2 ^ w ∧ rem.toNat < 2 ^ w ∧
      quo.toNat * low w x + rem.toNat = low w hi * 2 ^ w + low w lo ∧ rem.toNat < low w x ∧
      ∀ q m : Nat, q * low w x + m = low w hi * 2 ^ w + low w lo → m < low w x → q = quo.toNat ∧ m = rem.toNat
    (low 32 x ≠ 0 → low 32 hi < low 32 x →
      ∃ quo rem : Word, exec (.div32 hi lo x) s = .next (answered s quo.toNat rem.toNat) ∧ law 32 quo rem) ∧
    (low 64 x ≠ 0 → low 64 hi < low 64 x →
      ∃ quo rem : Word, exec (.div64 hi lo x) s = .next (answered s quo.toNat rem.toNat) ∧ law 64 quo rem) ∧
    (low s.cfg.nativeW.bits x ≠ 0 → low s.cfg.nativeW.bits hi < low s.cfg.nativeW.bits x →
      ∃ quo rem : Word, exec (.div hi lo x) s = .next (answered s quo.toNat rem.toNat) ∧ law s.cfg.nativeW.bits quo rem)

/-- R135, R161: an unfaulted block that executes a DIV whose divisor is 0 at its width records DIV_BY_ZERO with the request's
opcode byte, whatever hi and lo are, delivers no result words, and nothing else changes. -/
def Obligations.DivByZeroRecordsFault : Prop :=
  ∀ (hi lo x : Word) (s : State), s.flt = .none →
    (low 32 x = 0 → exec (.div32 hi lo x) s = .next (recorded s .divByZero 0x03#8)) ∧
    (low 64 x = 0 → exec (.div64 hi lo x) s = .next (recorded s .divByZero 0x07#8)) ∧
    (low s.cfg.nativeW.bits x = 0 → exec (.div hi lo x) s = .next (recorded s .divByZero 0x0B#8))

/-- R136: for x ≠ 0 the quotient fits in W bits exactly when hi < x, and that is when the core answers a quotient. -/
def Obligations.QuotientFitsExactlyWhenHiBelowDivisor : Prop :=
  ∀ (width : Width) (hi lo x : BitVec width.bits), x ≠ 0 →
    let w := width.bits
    let z := hi.toNat * 2 ^ w + lo.toNat
    (z / x.toNat < 2 ^ w ↔ z < x.toNat * 2 ^ w) ∧ (z < x.toNat * 2 ^ w ↔ hi.toNat < x.toNat) ∧
    (hi.toNat < x.toNat ↔ ∃ quo rem, divCore hi lo x = .result quo rem) ∧
    (x.toNat ≤ hi.toNat ↔ divCore hi lo x = .overflow)

/-- On quotient overflow (R137: x ≠ 0 and hi ≥ x) an unfaulted block with DIV_OVF_CHECK records QUOTIENT_OVERFLOW; without it
the response is two W-bit free values, zero-extended, the latch stays, and the two values are spent. It holds for
every value the draws could have. That the values are `Config.draw` at the counter `draws`, and that the counter goes on by
two, is the model's choice (log entry 2). The last two clauses are the datapaths of the rule's own example. -/
def Obligations.QuotientOverflowDrawsOrFaults : Prop :=
  (∀ (wsel : WidthSel) (hi lo x : Word) (s : State),
    let w := resolveWidth s.cfg wsel
    low w x ≠ 0 → low w x ≤ low w hi →
    (s.cfg.divOvfCheck = true → s.flt = .none →
      exec (buildInstr .div wsel hi lo x) s = .next (recorded s .quotientOverflow (opcodeByte .div wsel))) ∧
    (s.cfg.divOvfCheck = false →
      exec (buildInstr .div wsel hi lo x) s =
        .next { answered s (low w (Config.draw s.draws)) (low w (Config.draw (s.draws + 1))) with
          draws := s.draws + 2 })) ∧
  (algorithmD 32 5 0 5).quo = 0xFFFFFFFF ∧ (algorithmD 32 5 0 5).rem = 5 ∧ divDirect 32 5 0 5 = (0, 0)

/-- Without DIV_OVF_CHECK (R163) the code QUOTIENT_OVERFLOW is never raised: no step of such a block reports it or writes it into
the latch. With the check, a step reports it only for a divide with a non-zero divisor and hi at or above it. Such a
divide is answered with that fault under the check, and with the draws without it; which draws these are, `Config.draw` at the
counter `draws`, is the model's choice (log entry 2). -/
def Obligations.QuotientOverflowFaultOnlyWhenChecked : Prop :=
  (∀ s t : State, step s = .next t →
    (s.cfg.divOvfCheck = false →
      t.response ≠ some (.fault .quotientOverflow) ∧ (t.flt = .quotientOverflow → s.flt = .quotientOverflow)) ∧
    (t.response = some (.fault .quotientOverflow) →
      s.cfg.divOvfCheck = true ∧
      ∃ r i, s.inflight = some r ∧ decodeRequest r = .ok i ∧ overflows s.cfg i = true)) ∧
  (∀ (i : Instr) (s : State), overflows s.cfg i = true →
    ∃ t, exec i s = .next t ∧
      t.response =
        if s.cfg.divOvfCheck then some (.fault .quotientOverflow)
        else some (.result (BitVec.ofNat 64 (low (resolveWidth s.cfg i.widthSel) (Config.draw s.draws)))
          (BitVec.ofNat 64 (low (resolveWidth s.cfg i.widthSel) (Config.draw (s.draws + 1))))))

/-- The round trip that R116 makes possible: (hi, lo) = MUL(a, b), then DIV(hi, lo, b) answers (a, 0), for b ≠ 0. -/
def Obligations.MulThenDivRoundTrips : Prop :=
  ∀ (wsel : WidthSel) (a b c : Word) (s : State),
    let w := resolveWidth s.cfg wsel
    low w b ≠ 0 →
    ∃ hi lo : Word,
      exec (buildInstr .mul wsel a b c) s = .next (answered s hi.toNat lo.toNat) ∧
      exec (buildInstr .div wsel hi lo b) (answered s hi.toNat lo.toNat) = .next (answered s (low w a) 0)

/-- R138: on valid inputs the direct datapath equals DivCore. -/
def Obligations.DivDirectEqualsDivCore : Prop :=
  ∀ (width : Width) (hi lo x : BitVec width.bits), x ≠ 0 → hi.toNat < x.toNat →
    let w := width.bits
    let d := divDirect w hi.toNat lo.toNat x.toNat
    divCore hi lo x = .result (BitVec.ofNat w d.1) (BitVec.ofNat w d.2) ∧ d.1 < 2 ^ w ∧ d.2 < 2 ^ w

/-- R140, R141: the shift brings the divisor's top bit up and loses nothing of it, the bits that leave `lo` enter `un32`, the
half-digits are the words' halves, and on a valid input the normalized dividend is exactly z * 2^s. -/
def Obligations.NormalizationIsExact : Prop :=
  ∀ (width : Width) (hi lo x : Nat),
    let w := width.bits
    let b := 2 ^ (w / 2)
    hi < 2 ^ w → lo < 2 ^ w → x < 2 ^ w → x ≠ 0 →
    let n := divNormalize w hi lo x
    n.s ≤ w - 1 ∧ n.xn = x * 2 ^ n.s ∧ 2 ^ (w - 1) ≤ n.xn ∧ n.xn < 2 ^ w ∧
    n.un32 = (hi * 2 ^ n.s % 2 ^ w ||| lo / 2 ^ (w - n.s)) ∧ n.un10 = lo * 2 ^ n.s % 2 ^ w ∧
    n.xn = n.xhi * b + n.xlo ∧ n.xhi < b ∧ n.xlo < b ∧ b / 2 ≤ n.xhi ∧
    n.un10 = n.un1 * b + n.un0 ∧ n.un1 < b ∧ n.un0 < b ∧
    (hi < x → n.un32 * 2 ^ w + n.un10 = (hi * 2 ^ w + lo) * 2 ^ n.s)

/-- R143, R146: on every valid input Algorithm D's digits are half-digits, its partial remainders lie in [0, xn) with no
reduction changing them, and its answer is DivCore's. -/
def Obligations.AlgorithmDEqualsDivCore : Prop :=
  ∀ (width : Width) (hi lo x : BitVec width.bits), x ≠ 0 → hi.toNat < x.toNat →
    let w := width.bits
    let b := 2 ^ (w / 2)
    let d := algorithmD w hi.toNat lo.toNat x.toNat
    d.first.q < b ∧ d.second.q < b ∧
    d.normal.un32 * b + d.normal.un1 = d.first.q * d.normal.xn + d.un21 ∧ d.un21 < d.normal.xn ∧
    d.second.q * d.normal.xn ≤ d.un21 * b + d.normal.un0 ∧
    d.un21 * b + d.normal.un0 - d.second.q * d.normal.xn < d.normal.xn ∧
    divCore hi lo x = .result (BitVec.ofNat w d.quo) (BitVec.ofNat w d.rem) ∧ d.quo < 2 ^ w ∧ d.rem < 2 ^ w

/-- R147: for every input with x ≠ 0, valid or not, each correction loop runs its body at most twice, and a second body ends by
the `rhat >= b` exit; so the loop's answer is the same for every fuel of two or more. -/
def Obligations.CorrectionLoopRunsAtMostTwice : Prop :=
  ∀ (width : Width) (hi lo x : Nat),
    let w := width.bits
    let b := 2 ^ (w / 2)
    hi < 2 ^ w → lo < 2 ^ w → x < 2 ^ w → x ≠ 0 →
    let d := algorithmD w hi lo x
    let n := d.normal
    d.first.bodies ≤ 2 ∧ d.second.bodies ≤ 2 ∧
    (d.first.bodies = 2 → b ≤ d.first.rhat) ∧ (d.second.bodies = 2 → b ≤ d.second.rhat) ∧
    ∀ fuel, 2 ≤ fuel →
      correctDigit b n.xhi n.xlo n.un1 fuel (n.un32 / n.xhi) (n.un32 - n.un32 / n.xhi * n.xhi) = d.first ∧
      correctDigit b n.xhi n.xlo n.un0 fuel (d.un21 / n.xhi) (d.un21 - d.un21 / n.xhi * n.xhi) = d.second

/-- R150, R151: the two worked traces, every intermediate, the trial digit and the first correction of R151's second digit, and
the two responses. -/
def Obligations.AlgorithmDWorkedTraces : Prop :=
  algorithmD 64 0 10 3 =
    { normal :=
        { s := 62, xn := 0xC000000000000000, un32 := 2, un10 := 0x8000000000000000,
          xhi := 0xC0000000, xlo := 0, un1 := 0x80000000, un0 := 0 }
      first := { q := 0, rhat := 2, bodies := 0 }
      un21 := 0x280000000
      second := { q := 3, rhat := 0x40000000, bodies := 0 }
      quo := 3
      rem := 1 } ∧
  algorithmD 64 0x7FFFFFFF 0 0x80000000FFFFFFFF =
    { normal :=
        { s := 0, xn := 0x80000000FFFFFFFF, un32 := 0x7FFFFFFF, un10 := 0,
          xhi := 0x80000000, xlo := 0xFFFFFFFF, un1 := 0, un0 := 0 }
      first := { q := 0, rhat := 0x7FFFFFFF, bodies := 0 }
      un21 := 0x7FFFFFFF00000000
      second := { q := 0xFFFFFFFC, rhat := 0x100000000, bodies := 2 }
      quo := 0xFFFFFFFC
      rem := 0x4FFFFFFFC } ∧
  0x7FFFFFFF00000000 / 0x80000000 = 0xFFFFFFFE ∧ 0x7FFFFFFF00000000 - 0xFFFFFFFE * 0x80000000 = 0 ∧
  correctDigit (2 ^ 32) 0x80000000 0xFFFFFFFF 0 1 0xFFFFFFFE 0 = { q := 0xFFFFFFFD, rhat := 0x80000000, bodies := 1 } ∧
  responseOf (exec (.div64 0 10 3) State.reset) = some (.result 3 1) ∧
  responseOf (exec (.div64 0x7FFFFFFF#64 0 0x80000000FFFFFFFF#64) State.reset) =
    some (.result 0xFFFFFFFC#64 0x4FFFFFFFC#64)

/-! ### Encoding (spec/30_encoding.md) -/

/-- Decode and encode agree, both ways, for every instruction and every operand: no bit of a request is dropped (R60, R62,
R64). -/
def Obligations.DecodeEncodeAgree : Prop :=
  (∀ i : Instr, decode (encode i) = .ok i) ∧
  (∀ (w : BitVec 200) (i : Instr), decode w = .ok i → encode i = w) ∧
  (∀ r : Request, unpackRequest (packRequest r) = r)

/-- R64: exactly the twelve bytes are defined, each with its mnemonic, its fields and its width. -/
def Obligations.OpcodeMapIsExact : Prop :=
  (∀ cfg : Config,
    opcodeMap.map (fun o => (opcodeByte o.1 o.2, mnemonic o.1 o.2, resolveWidth cfg o.2)) =
      [(0x00#8, "ADD32", 32), (0x01#8, "SUB32", 32), (0x02#8, "MUL32", 32), (0x03#8, "DIV32", 32),
        (0x04#8, "ADD64", 64), (0x05#8, "SUB64", 64), (0x06#8, "MUL64", 64), (0x07#8, "DIV64", 64),
        (0x08#8, "ADD", cfg.nativeW.bits), (0x09#8, "SUB", cfg.nativeW.bits), (0x0A#8, "MUL", cfg.nativeW.bits),
        (0x0B#8, "DIV", cfg.nativeW.bits)]) ∧
  (∀ o ∈ opcodeMap, decodeOpcode (opcodeByte o.1 o.2) = .ok o) ∧
  (∀ (op : Byte) (o : Family × WidthSel), decodeOpcode op = .ok o → o ∈ opcodeMap ∧ op = opcodeByte o.1 o.2)

/-- A byte is reserved (R69, R162) when WSEL = 11 or RSV ≠ 0000, 244 bytes in all; a request in flight with such a byte raises
ILLEGAL_OP in an unfaulted block, whatever its operands, and nothing else changes but that this step's level of the reset input
is past, which is the model's choice (log entry 4). -/
def Obligations.ReservedOpcodeRaisesIllegalOp : Prop :=
  (∀ op : Byte, (∃ e, decodeOpcode op = .error e) ↔ (op.extractLsb' 2 2 = 0b11#2 ∨ op.extractLsb' 4 4 ≠ 0b0000#4)) ∧
  ((List.range 256).filter fun n => (decodeOpcode (BitVec.ofNat 8 n)).toOption.isNone).length = 244 ∧
  (∀ (s : State) (r : Request), s.inflight = some r → resetAsserted s = false → s.flt = .none →
    (r.op.extractLsb' 2 2 = 0b11#2 ∨ r.op.extractLsb' 4 4 ≠ 0b0000#4) →
    step s = .next (recorded { s with resetIn := s.resetIn.tail } .illegalOp r.op))

/-- R74's request and its response, and one request each of SUB64, MUL32, DIV and DIV64: five requests, their 200 bits written out
from the formats and the opcode map (30_encoding.md sections 1 and 2). -/
def Obligations.WrittenRequestsDecode : Prop :=
  decode 0x00000000000000010000000000000000FFFFFFFFFFFFFFFF04#200 = .ok (.add64 0xFFFFFFFFFFFFFFFF#64 0 1) ∧
  encode (.add64 0xFFFFFFFFFFFFFFFF#64 0 1) = 0x00000000000000010000000000000000FFFFFFFFFFFFFFFF04#200 ∧
  responseOf (exec (.add64 0xFFFFFFFFFFFFFFFF#64 0 1) State.reset) = some (.result 0 1) ∧
  faultField (.result 0 1) = 0 ∧
  decode 0x0000000000000000FFFFFFFFFFFFFFFF000000000000000005#200 = .ok (.sub64 0 0xFFFFFFFFFFFFFFFF#64 0) ∧
  decode 0x0000000000000000000000009ABCDEF0000000001234567802#200 = .ok (.mul32 0x12345678#64 0x9ABCDEF0#64 0) ∧
  decode 0x0000000000000007000000000000006400000000000000000B#200 = .ok (.div 0 0x64 7) ∧
  decode 0xFEDCBA98765432102236D88FE5618CF00121FA00AD77D74207#200 =
    .ok (.div64 0x0121FA00AD77D742#64 0x2236D88FE5618CF0#64 0xFEDCBA9876543210#64)

/-- R65: WSEL gives the width, and a native-width opcode gives, for every operand, the same results and fault code as the
fixed-width opcode of width NATIVE_W and the same family, leaving the same state but for FOP, which records the byte
actually sent. -/
def Obligations.NativeOpcodeActsAsFixedWidth : Prop :=
  (∀ cfg : Config, resolveWidth cfg .w32 = 32 ∧ resolveWidth cfg .w64 = 64 ∧
    resolveWidth cfg .native = cfg.nativeW.bits) ∧
  ∀ (fam : Family) (a b c : Word) (s : State),
    let fixed : WidthSel := match s.cfg.nativeW with
      | .w32 => .w32
      | .w64 => .w64
    ∃ t u : State,
      exec (buildInstr fam .native a b c) s = .next t ∧ exec (buildInstr fam fixed a b c) s = .next u ∧
      t = { u with fop := t.fop } ∧
      (t.flt = s.flt → t.fop = u.fop) ∧ (t.flt ≠ s.flt → t.fop = opcodeByte fam .native)

/-- R42: a 32-bit operation reads only bits [31:0] of each operand port and drives bits [63:32] of each result port to 0; so
does a native-width one at NATIVE_W = 32. -/
def Obligations.ThirtyTwoBitFormsIgnoreUpperBits : Prop :=
  ∀ (fam : Family) (wsel : WidthSel) (a b c a' b' c' : Word) (s : State), resolveWidth s.cfg wsel = 32 →
    low 32 a = low 32 a' → low 32 b = low 32 b' → low 32 c = low 32 c' →
    exec (buildInstr fam wsel a b c) s = exec (buildInstr fam wsel a' b' c') s ∧
    ∃ t, exec (buildInstr fam wsel a b c) s = .next t ∧
      ∀ r0 r1, t.response = some (.result r0 r1) → r0.toNat < 2 ^ 32 ∧ r1.toNat < 2 ^ 32

/-- A packed response (R61) has R0 in bits 63:0, R1 in 127:64 and FAULT = 0 in 129:128; a response with a fault has that fault's
code as FAULT and no words (R165). That it has no packed value either, though R61 gives every response 130 bits, is the
model's choice (log entry 11). -/
def Obligations.ResponsePackingFields : Prop :=
  (∀ r0 r1 : Word, ∃ v, packResponse (.result r0 r1) = some v ∧
    v.extractLsb' 0 64 = r0 ∧ v.extractLsb' 64 64 = r1 ∧ v.extractLsb' 128 2 = 0) ∧
  (∀ f : FaultCode, packResponse (.fault f) = none ∧ resultWords (.fault f) = none ∧ faultField (.fault f) = f.code)

/-- R72, R73: three operands for ADD, SUB and DIV, two for MUL with C = 0; every mnemonic stands for its own opcode and no
other, and no other name stands for anything; what the assembler writes is well formed. -/
def Obligations.AssemblerWritesOneRequest : Prop :=
  (∀ (fam : Family) (wsel : WidthSel) (operands : List Word),
    assembleLine (mnemonic fam wsel) operands = assemble fam wsel operands) ∧
  (∀ (name : String) (operands : List Word) (i : Instr), assembleLine name operands = some i →
    ∃ fam wsel, name = mnemonic fam wsel) ∧
  (∀ (fam : Family) (wsel : WidthSel) (a b c : Word), fam ≠ .mul →
    assemble fam wsel [a, b, c] = some (buildInstr fam wsel a b c)) ∧
  (∀ (wsel : WidthSel) (a b : Word), assemble .mul wsel [a, b] = some (buildInstr .mul wsel a b 0)) ∧
  (∀ (fam : Family) (wsel : WidthSel) (operands : List Word) (i : Instr), assemble fam wsel operands = some i →
    i.wellFormed = true ∧ (encodeRequest i).op = opcodeByte fam wsel ∧
    operands.length = (if fam = .mul then 2 else 3))

/-- The written form of a request (R72). A decimal literal, a `0x` literal in either case of its digits, and a bound host name
each give their value, leading zeros or not. With operands that have a value, whatever their form, a line of ADD, SUB or DIV
with three of them and a line of MUL with two is read as its instruction, with result names and without, with a comment and
without; a line of MUL with three is refused. Each of two names that a response binds is an operand of a later line. (What the
rule leaves open of the text, and what this reads, is log entries 9, 14 and 15.) -/
def Obligations.AssemblerReadsEveryWrittenForm : Prop :=
  let isComment := fun text : List Char => text = [] ∨ ∃ rest, text = ' ' :: ';' :: rest
  let results := fun n0 n1 : List Char => " -> ".toList ++ n0 ++ ", ".toList ++ n1
  (∀ (names : HostNames) (n zeros : Nat), n < 2 ^ 64 →
    let decimal := List.replicate zeros '0' ++ Nat.toDigits 10 n
    let hex := List.replicate zeros '0' ++ Nat.toDigits 16 n
    ∀ text ∈ [decimal, '0' :: 'x' :: hex, '0' :: 'x' :: hex.map Char.toUpper],
      isWordText text = true ∧ operandValue names text = some (BitVec.ofNat 64 n)) ∧
  (∀ (names : HostNames) (name : List Char) (v : Word), literalValue name = none → names.lookup name = some v →
    operandValue names name = some v) ∧
  (∀ (names : HostNames) (fam : Family) (wsel : WidthSel) (a b c n0 n1 comment : List Char) (va vb vc : Word),
    isWordText a = true → isWordText b = true → isWordText c = true → isWordText n0 = true → isWordText n1 = true →
    operandValue names a = some va → operandValue names b = some vb → operandValue names c = some vc →
    isComment comment →
    let two := (mnemonic fam wsel).toList ++ " ".toList ++ a ++ ", ".toList ++ b
    let three := two ++ ", ".toList ++ c
    let read := fun i : Instr => fun line : List Char =>
      assembleText names (line ++ comment) = some { instr := i, results := none } ∧
      assembleText names (line ++ results n0 n1 ++ comment) = some { instr := i, results := some (n0, n1) }
    if fam = .mul then
      read (buildInstr .mul wsel va vb 0) two ∧
      assembleText names (three ++ comment) = none ∧ assembleText names (three ++ results n0 n1 ++ comment) = none
    else read (buildInstr fam wsel va vb vc) three) ∧
  (∀ (names : HostNames) (line : AssembledLine) (n0 n1 : List Char) (r0 r1 : Word), line.results = some (n0, n1) →
    literalValue n0 = none → literalValue n1 = none → n0 ≠ n1 →
    let bound := bindResults line (.result r0 r1) names
    operandValue bound n0 = some r0 ∧ operandValue bound n1 = some r1)

/-! ### One step (spec/20_memory.md, spec/60_exceptions.md) -/

/-- A step runs the decoded instruction: in an unfaulted block whose reset is not asserted, a request in flight that decodes to
`i` is answered by `exec i`, at the state with the last response taken off the ports and this step's level of the
reset input past (the model's choices, log entries 4 and 5). -/
def Obligations.StepRunsDecodedInstruction : Prop :=
  ∀ (s : State) (r : Request) (i : Instr), s.inflight = some r → resetAsserted s = false → s.flt = .none →
    decodeRequest r = .ok i →
    step s = exec i { s with response := none, resetIn := s.resetIn.tail }

/-- A presented request is accepted by an unfaulted block with nothing in flight: all four ports are sampled together, and
nothing is delivered (R44; the list of presented requests, the reset levels and the response's end are the model's
choices, log entries 3, 4 and 5). -/
def Obligations.StepAcceptsPresentedRequest : Prop :=
  ∀ (s : State) (r : Request) (rest : List Request), s.inflight = none → s.requests = r :: rest →
    resetAsserted s = false → s.flt = .none →
    step s = .next { s with inflight := some r, requests := rest, response := none, resetIn := s.resetIn.tail }

/-- R177: with no request present the block is idle, faulted or not: it goes on, holds its fault latch and stays idle. -/
def Obligations.IdleBlockHoldsItsLatch : Prop :=
  ∀ s : State, s.inflight = none → s.requests = [] → resetAsserted s = false →
    ∃ t, step s = .next t ∧ t.flt = s.flt ∧ t.fop = s.fop ∧ statusWord t = statusWord s ∧
      t.inflight = none ∧ t.requests = [] ∧ t.cfg = s.cfg ∧ t.draws = s.draws

/-- While FLT is not NONE (R166) the block accepts and answers no request: until reset is asserted a step at a request stops, by
name (the model's form of "stuck", log entry 7); no step of a faulted block accepts or answers anything (what is presented is the model's list, log entry 3). STATUS still
reads the latch. -/
def Obligations.FaultedBlockAcceptsNothing : Prop :=
  ∀ s : State, s.flt ≠ .none →
    (resetAsserted s = false → (s.requests ≠ [] ∨ s.inflight ≠ none) → step s = .fault .blockFaulted) ∧
    (∀ t, step s = .next t → t.requests = s.requests ∧ t.inflight = none ∧ t.response = none) ∧
    (statusWord s).extractLsb' 0 2 = s.flt.code ∧ (statusWord s).extractLsb' 8 8 = s.fop

/-- The transaction (R178), which this model takes in two steps, accepting and answering (log entry 7). An unfaulted, idle block
at which `r` is presented, reset not asserted meanwhile, answers it: by the instruction it decodes to, or by ILLEGAL_OP. The
list of presented requests, which loses its first, and the reset levels, of which two are past, are the model's choices too
(log entries 3 and 4). -/
def Obligations.TransactionTakesTwoSteps : Prop :=
  ∀ (s : State) (r : Request) (rest : List Request), s.inflight = none → s.requests = r :: rest → s.flt = .none →
    s.resetIn.take 2 ⊆ [false] →
    let sampled : State :=
      { s with inflight := some r, requests := rest, response := none, resetIn := s.resetIn.drop 2 }
    (∀ i, decodeRequest r = .ok i → Sys2Proof.core.run 2 s = exec i sampled) ∧
    (∀ e, decodeRequest r = .error e → Sys2Proof.core.run 2 s = .next (recorded sampled .illegalOp r.op))

/-- Every accepted request on an unfaulted block gets its response (R197): in this model at the next step, unless reset is
asserted (log entry 7). -/
def Obligations.AcceptedRequestIsAnswered : Prop :=
  ∀ (s : State) (r : Request), s.inflight = some r → s.flt = .none → resetAsserted s = false →
    ∃ (t : State) (answer : Response), step s = .next t ∧ t.response = some answer ∧ t.inflight = none

/-- A block with a request in flight accepts no other, and after a step that goes on none is in flight: at most one request at a
time, answered whole (R44), or dropped by reset without a response (R190). That the step after the acceptance already answers,
so that nothing is in flight after it, is the model's choice (log entry 7), and so are the list of presented requests and
the reset levels (log entries 3 and 4). -/
def Obligations.NothingIsAcceptedWhileARequestIsInFlight : Prop :=
  ∀ (s t : State) (r : Request), s.inflight = some r → step s = .next t →
    t.requests = s.requests ∧ t.inflight = none ∧ (t.response = none ↔ resetAsserted s = true)

/-- R168: one fault at most, in this order: a reserved opcode, a zero divisor, a quotient overflow under DIV_OVF_CHECK. -/
def Obligations.FaultPriority : Prop :=
  ∀ (s : State) (r : Request), s.inflight = some r → s.flt = .none → resetAsserted s = false →
    ∃ (t : State) (answer : Response), step s = .next t ∧ t.response = some answer ∧
      faultField answer =
        match decodeRequest r with
        | .error _ => FaultCode.code .illegalOp
        | .ok i =>
          let w := resolveWidth s.cfg i.widthSel
          if i.family = .div ∧ low w r.c = 0 then FaultCode.code .divByZero
          else if i.family = .div ∧ low w r.c ≤ low w r.a ∧ s.cfg.divOvfCheck = true then FaultCode.code .quotientOverflow
          else 0

/-- Purity (R29): in two unfaulted blocks of the same configuration the same request gets the same response, if the draws it may
use are the same. That equal counters mean equal draws is the model's choice (log entry 2). -/
def Obligations.ResponseIsPure : Prop :=
  ∀ (s s' : State) (r : Request), s.inflight = some r → s'.inflight = some r → s.flt = .none → s'.flt = .none →
    resetAsserted s = false → resetAsserted s' = false → s.cfg = s'.cfg → s.draws = s'.draws →
    ∃ (t t' : State) (answer : Response), step s = .next t ∧ step s' = .next t' ∧
      t.response = some answer ∧ t'.response = some answer

/-- Replaying a request gives the same response, at whatever count of draws, unless its quotient overflows (R44). -/
def Obligations.ReplayGivesTheSameResponse : Prop :=
  ∀ (i : Instr) (s s' : State), s.cfg = s'.cfg → overflows s.cfg i = false →
    ∃ (t t' : State) (answer : Response), exec i s = .next t ∧ exec i s' = .next t' ∧
      t.response = some answer ∧ t'.response = some answer

/-- The n-th response answers the n-th accepted request, and once one request faults no later one is accepted (R47): an unfaulted
idle block whose reset stays released answers whatever requests are presented in order, one response each, up to and with
the first fault, in two steps per request and with nothing after them. The second clause: where no request faults or
overflows (carries and borrows outside {0, 1} included), each is answered as if it came alone. The list of presented
requests, the reset levels, two steps per request and the order of the free values are the model's choices (log entries 2, 3, 4
and 7). -/
def Obligations.ResponsesComeInOrder : Prop :=
  ∀ s : State, s.flt = .none → s.inflight = none → (∀ level ∈ s.resetIn, level = false) →
    (∀ k, responsesOver (2 * s.requests.length + k) s = answersInOrder s.requests s) ∧
    ((∀ r ∈ s.requests, ∃ i, decodeRequest r = .ok i ∧ (i.family = .div → meetsObligations s.cfg i = true)) →
      (responsesOver (2 * s.requests.length) s).map some = s.requests.map (answerOf s) ∧
      ∀ r ∈ s.requests, ∃ r0 r1, answerOf s r = some (.result r0 r1))

/-- Instances share nothing (R48, R175): a step of one instance is the step that it takes alone and leaves every other as it is,
steps of two commute, and in every interleaving each instance is where its own steps alone take it. That a system is a list of
instances of which one steps at a time is the model's choice (log entry 10). -/
def Obligations.InstancesAreIndependent : Prop :=
  (∀ (sys : List State) (j k : Nat), j ≠ k →
    (∀ sys', systemStep k sys = some sys' → sys'[j]? = sys[j]?) ∧
    (systemStep j sys).bind (systemStep k) = (systemStep k sys).bind (systemStep j)) ∧
  (∀ (sys sys' : List State) (k : Nat), systemStep k sys = some sys' →
    ∃ s t, sys[k]? = some s ∧ step s = .next t ∧ sys'[k]? = some t) ∧
  (∀ (sys : List State) (k : Nat) (s t : State), sys[k]? = some s → step s = .next t →
    ∃ sys', systemStep k sys = some sys' ∧ sys'[k]? = some t) ∧
  (∀ (order : List Nat) (sys sys' : List State), order.foldlM (fun now k => systemStep k now) sys = some sys' →
    ∀ (k : Nat) (s : State), sys[k]? = some s →
      ∃ t : State, Sys2Proof.core.run (order.count k) s = .next t ∧ sys'[k]? = some t)

/-! ### Whole-machine rules: what each step may change -/

/-- R25: only reset and fault recording write the latch. A response with result words leaves it; a faulted block keeps its
first fault until reset; a change without reset is the recording of the fault that the response carries and of the
opcode byte of the request in flight. -/
def Obligations.LatchIsWrittenByFaultsAndResetOnly : Prop :=
  ∀ s t : State, step s = .next t →
    (resetAsserted s = true → t.flt = .none ∧ t.fop = 0x00#8) ∧
    (resetAsserted s = false →
      (s.flt ≠ .none → t.flt = s.flt ∧ t.fop = s.fop) ∧
      (∀ r0 r1, t.response = some (.result r0 r1) → t.flt = s.flt ∧ t.fop = s.fop) ∧
      ((t.flt ≠ s.flt ∨ t.fop ≠ s.fop) →
        s.flt = .none ∧ t.flt ≠ .none ∧ t.response = some (.fault t.flt) ∧
        ∃ r, s.inflight = some r ∧ t.fop = r.op))

/-- R165: an instruction that raises a fault in an unfaulted block writes the code and its own opcode byte into the latch, and
the response carries the code and no result words; nothing else happens. Where the latch holds a fault already, it stays. The
last clause is the code space. -/
def Obligations.FaultRecordingDoesNothingElse : Prop :=
  (∀ (i : Instr) (s t : State) (f : FaultCode), exec i s = .next t → t.response = some (.fault f) →
    (s.flt = .none → t = recorded s f (opcodeByte i.family i.widthSel)) ∧
    (s.flt ≠ .none → t = { s with inflight := none, response := some (.fault f) }) ∧
    faultField (.fault f) = f.code ∧ f.code ≠ 0 ∧ resultWords (.fault f) = none) ∧
  FaultCode.none.code = 0 ∧ FaultCode.divByZero.code = 1 ∧ FaultCode.illegalOp.code = 2 ∧
  FaultCode.quotientOverflow.code = 3

/-- R26: STATUS holds FLT in bits 1:0, zeros in 7:2 and FOP in 15:8, reads 0x00 as FOP while FLT is NONE (in every state of the
invariant), reads no parameter, and no request that is answered with result words changes it. -/
def Obligations.StatusWordFields : Prop :=
  ∀ s : State,
    (statusWord s).extractLsb' 0 2 = s.flt.code ∧
    (statusWord s).extractLsb' 2 6 = 0 ∧
    (statusWord s).extractLsb' 8 8 = s.fop ∧
    (Inv s → s.flt = .none → statusWord s = 0x0000#16) ∧
    (∀ cfg, statusWord { s with cfg := cfg } = statusWord s) ∧
    (∀ i t r0 r1, exec i s = .next t → t.response = some (.result r0 r1) → statusWord t = statusWord s)

/-- Every step keeps the invariant of the state (Safety.lean `Inv`). -/
def Obligations.EveryStepKeepsTheInvariant : Prop :=
  ∀ s t : State, Inv s → step s = .next t → Inv t

/-- The invariant holds right after reset, at every configuration. -/
def Obligations.InvariantHoldsAtReset : Prop :=
  (∀ cfg : Config, Inv (State.resetWith cfg)) ∧ Inv State.reset

/-- The parameters cannot change while the block runs: no step, reset among them, changes the configuration (R8, R190). -/
def Obligations.ConfigurationNeverChanges : Prop :=
  ∀ s t : State, step s = .next t → t.cfg = s.cfg

/-- Every instruction answers, in every state: a response, and nothing left in flight. -/
def Obligations.EveryInstructionAnswers : Prop :=
  ∀ (i : Instr) (s : State), ∃ (t : State) (answer : Response),
    exec i s = .next t ∧ t.response = some answer ∧ t.inflight = none

/-- R164, and the frame of ADD32, ADD64, ADD, SUB32, SUB64, SUB, MUL32, MUL64 and MUL: they never fault, whatever the carry, the
borrow and the upper bits; they answer with result words, and nothing but the request in flight and the response
changes. A fault of a DIV is one of the three codes. -/
def Obligations.AddSubMulNeverFault : Prop :=
  (∀ (i : Instr) (s : State), i.family ≠ .div →
    ∃ r0 r1 : Word, exec i s = .next { s with inflight := none, response := some (.result r0 r1) }) ∧
  (∀ (i : Instr) (s t : State) (f : FaultCode), exec i s = .next t → t.response = some (.fault f) →
    i.family = .div ∧ (f = .divByZero ∨ f = .quotientOverflow))

/-- The frame of DIV32, DIV64 and DIV: the configuration and what the host drives stay; the latch stays unless the response
carries a fault, and in a faulted block always; the count of free values moves only on an unchecked overflow. (The count and
what the host drives are the model's own fields, log entries 2, 3 and 4.) -/
def Obligations.DivFrame : Prop :=
  ∀ (wsel : WidthSel) (hi lo x : Word) (s t : State), exec (buildInstr .div wsel hi lo x) s = .next t →
    t.cfg = s.cfg ∧ t.requests = s.requests ∧ t.resetIn = s.resetIn ∧ t.inflight = none ∧
    (∀ r0 r1, t.response = some (.result r0 r1) → t.flt = s.flt ∧ t.fop = s.fop) ∧
    (s.flt ≠ .none → t.flt = s.flt ∧ t.fop = s.fop) ∧
    ((overflows s.cfg (buildInstr .div wsel hi lo x) = false ∨ s.cfg.divOvfCheck = true) → t.draws = s.draws)

/-- A request that keeps the host's obligations is answered with two W-bit result words, and nothing else changes (R196). -/
def Obligations.KeptObligationsGiveResultWords : Prop :=
  ∀ (i : Instr) (s : State), meetsObligations s.cfg i = true →
    ∃ r0 r1 : Word, exec i s = .next (answered s r0.toNat r1.toNat) ∧
      r0.toNat < 2 ^ resolveWidth s.cfg i.widthSel ∧ r1.toNat < 2 ^ resolveWidth s.cfg i.widthSel

/-! ### Reset (spec/70_reset_and_hazards.md) -/

/-- Asserting reset (R190), in any state, clears FLT and FOP, so STATUS reads 0x0000, drops a request in flight with no response
and no fault, accepts no presented request, and changes neither the parameters nor anything else; no other step leaves
the faulted state. The list of presented requests, and the reset levels of which this step's is past, are the model's choices
(log entries 3 and 4). -/
def Obligations.ResetInputClearsLatchAndDropsRequest : Prop :=
  (∀ s : State, resetAsserted s = true →
    ∃ t, step s = .next t ∧
      t = { s with flt := .none, fop := 0x00#8, inflight := none, response := none, resetIn := s.resetIn.tail } ∧
      statusWord t = 0x0000#16) ∧
  (∀ s t : State, s.flt ≠ .none → step s = .next t → t.flt = .none → resetAsserted s = true)

/-- R192: the reset values of every piece of state, at every configuration. -/
def Obligations.ResetValues : Prop :=
  let specified := fun s : State =>
    s.flt = .none ∧ s.flt.code = 0 ∧ s.fop = 0x00#8 ∧ statusWord s = 0x0000#16 ∧ s.inflight = none ∧ s.response = none
  (∀ cfg : Config, specified (State.resetWith cfg) ∧ (State.resetWith cfg).cfg = cfg) ∧ specified State.reset

/-- Once reset is released (R191) the block is idle and unfaulted, and accepts the next request. The list of presented requests,
and the reset levels of which each step's is past, are the model's choices (log entries 3 and 4). -/
def Obligations.ReleasedResetAcceptsNextRequest : Prop :=
  ∀ s t : State, resetAsserted s = true → step s = .next t → resetAsserted t = false →
    t.flt = .none ∧ t.inflight = none ∧
    (t.requests = [] → step t = .next { t with resetIn := t.resetIn.tail }) ∧
    (∀ r rest, t.requests = r :: rest →
      step t = .next { t with inflight := some r, requests := rest, resetIn := t.resetIn.tail })
end

