-- ==== Sys2Proof/Laws/State.lean ====
section
/-!
SUPPORT. What each update of the state does to each field, one lemma per field per update, so that no later proof unfolds a
record update.
-/

namespace Sys2Proof.Machine

/-! ### `deliver` -/

@[simp] theorem deliver_cfg (r0 r1 : Word) (s : State) :
    (deliver r0 r1 s).cfg = s.cfg := rfl
@[simp] theorem deliver_flt (r0 r1 : Word) (s : State) :
    (deliver r0 r1 s).flt = s.flt := rfl
@[simp] theorem deliver_fop (r0 r1 : Word) (s : State) :
    (deliver r0 r1 s).fop = s.fop := rfl
@[simp] theorem deliver_inflight (r0 r1 : Word) (s : State) :
    (deliver r0 r1 s).inflight = none := rfl
@[simp] theorem deliver_response (r0 r1 : Word) (s : State) :
    (deliver r0 r1 s).response = some (.result r0 r1) := rfl
@[simp] theorem deliver_requests (r0 r1 : Word) (s : State) :
    (deliver r0 r1 s).requests = s.requests := rfl
@[simp] theorem deliver_resetIn (r0 r1 : Word) (s : State) :
    (deliver r0 r1 s).resetIn = s.resetIn := rfl
@[simp] theorem deliver_draws (r0 r1 : Word) (s : State) :
    (deliver r0 r1 s).draws = s.draws := rfl

/-! ### `raise` -/

@[simp] theorem raise_cfg (f : FaultCode) (op : Byte) (s : State) :
    (raise f op s).cfg = s.cfg := rfl
@[simp] theorem raise_flt (f : FaultCode) (op : Byte) (s : State) :
    (raise f op s).flt = if s.flt = .none then f else s.flt := rfl
@[simp] theorem raise_fop (f : FaultCode) (op : Byte) (s : State) :
    (raise f op s).fop = if s.flt = .none then op else s.fop := rfl
@[simp] theorem raise_inflight (f : FaultCode) (op : Byte) (s : State) :
    (raise f op s).inflight = none := rfl
@[simp] theorem raise_response (f : FaultCode) (op : Byte) (s : State) :
    (raise f op s).response = some (.fault f) := rfl
@[simp] theorem raise_requests (f : FaultCode) (op : Byte) (s : State) :
    (raise f op s).requests = s.requests := rfl
@[simp] theorem raise_resetIn (f : FaultCode) (op : Byte) (s : State) :
    (raise f op s).resetIn = s.resetIn := rfl
@[simp] theorem raise_draws (f : FaultCode) (op : Byte) (s : State) :
    (raise f op s).draws = s.draws := rfl

/-! ### `applyReset` -/

@[simp] theorem applyReset_cfg (s : State) :
    (applyReset s).cfg = s.cfg := rfl
@[simp] theorem applyReset_flt (s : State) :
    (applyReset s).flt = .none := rfl
@[simp] theorem applyReset_fop (s : State) :
    (applyReset s).fop = 0x00#8 := rfl
@[simp] theorem applyReset_inflight (s : State) :
    (applyReset s).inflight = none := rfl
@[simp] theorem applyReset_response (s : State) :
    (applyReset s).response = none := rfl
@[simp] theorem applyReset_requests (s : State) :
    (applyReset s).requests = s.requests := rfl
@[simp] theorem applyReset_resetIn (s : State) :
    (applyReset s).resetIn = s.resetIn.tail := rfl
@[simp] theorem applyReset_draws (s : State) :
    (applyReset s).draws = s.draws := rfl

/-! ### `deliverDraws` -/

@[simp] theorem deliverDraws_cfg (w : Nat) (s : State) :
    (deliverDraws w s).cfg = s.cfg := rfl
@[simp] theorem deliverDraws_flt (w : Nat) (s : State) :
    (deliverDraws w s).flt = s.flt := rfl
@[simp] theorem deliverDraws_fop (w : Nat) (s : State) :
    (deliverDraws w s).fop = s.fop := rfl
@[simp] theorem deliverDraws_inflight (w : Nat) (s : State) :
    (deliverDraws w s).inflight = none := rfl
@[simp] theorem deliverDraws_response (w : Nat) (s : State) :
    (deliverDraws w s).response = some (.result ((drawAt w s.draws).setWidth 64) ((drawAt w (s.draws + 1)).setWidth 64)) := rfl
@[simp] theorem deliverDraws_requests (w : Nat) (s : State) :
    (deliverDraws w s).requests = s.requests := rfl
@[simp] theorem deliverDraws_resetIn (w : Nat) (s : State) :
    (deliverDraws w s).resetIn = s.resetIn := rfl
@[simp] theorem deliverDraws_draws (w : Nat) (s : State) :
    (deliverDraws w s).draws = s.draws + 2 := rfl

/-! ### `beginStep` -/

@[simp] theorem beginStep_cfg (s : State) :
    (beginStep s).cfg = s.cfg := rfl
@[simp] theorem beginStep_flt (s : State) :
    (beginStep s).flt = s.flt := rfl
@[simp] theorem beginStep_fop (s : State) :
    (beginStep s).fop = s.fop := rfl
@[simp] theorem beginStep_inflight (s : State) :
    (beginStep s).inflight = s.inflight := rfl
@[simp] theorem beginStep_response (s : State) :
    (beginStep s).response = none := rfl
@[simp] theorem beginStep_requests (s : State) :
    (beginStep s).requests = s.requests := rfl
@[simp] theorem beginStep_resetIn (s : State) :
    (beginStep s).resetIn = s.resetIn.tail := rfl
@[simp] theorem beginStep_draws (s : State) :
    (beginStep s).draws = s.draws := rfl

/-! ### `accept` -/

@[simp] theorem accept_cfg (r : Request) (rest : List Request) (s : State) :
    (accept r rest s).cfg = s.cfg := rfl
@[simp] theorem accept_flt (r : Request) (rest : List Request) (s : State) :
    (accept r rest s).flt = s.flt := rfl
@[simp] theorem accept_fop (r : Request) (rest : List Request) (s : State) :
    (accept r rest s).fop = s.fop := rfl
@[simp] theorem accept_inflight (r : Request) (rest : List Request) (s : State) :
    (accept r rest s).inflight = some r := rfl
@[simp] theorem accept_response (r : Request) (rest : List Request) (s : State) :
    (accept r rest s).response = s.response := rfl
@[simp] theorem accept_requests (r : Request) (rest : List Request) (s : State) :
    (accept r rest s).requests = rest := rfl
@[simp] theorem accept_resetIn (r : Request) (rest : List Request) (s : State) :
    (accept r rest s).resetIn = s.resetIn := rfl
@[simp] theorem accept_draws (r : Request) (rest : List Request) (s : State) :
    (accept r rest s).draws = s.draws := rfl

/-! ### `State.withFetchWord` -/

@[simp] theorem State.withFetchWord_cfg (nbits w : Nat) (s : State) :
    (s.withFetchWord nbits w).cfg = s.cfg := rfl
@[simp] theorem State.withFetchWord_flt (nbits w : Nat) (s : State) :
    (s.withFetchWord nbits w).flt = .none := rfl
@[simp] theorem State.withFetchWord_fop (nbits w : Nat) (s : State) :
    (s.withFetchWord nbits w).fop = 0x00#8 := rfl
@[simp] theorem State.withFetchWord_inflight (nbits w : Nat) (s : State) :
    (s.withFetchWord nbits w).inflight = some (tableRequest nbits w) := rfl
@[simp] theorem State.withFetchWord_response (nbits w : Nat) (s : State) :
    (s.withFetchWord nbits w).response = s.response := rfl
@[simp] theorem State.withFetchWord_requests (nbits w : Nat) (s : State) :
    (s.withFetchWord nbits w).requests = s.requests := rfl
@[simp] theorem State.withFetchWord_resetIn (nbits w : Nat) (s : State) :
    (s.withFetchWord nbits w).resetIn = [] := rfl
@[simp] theorem State.withFetchWord_draws (nbits w : Nat) (s : State) :
    (s.withFetchWord nbits w).draws = s.draws := rfl

end Sys2Proof.Machine

namespace Sys2Proof.Safety

open Sys2Proof.Machine

/-! ### `answered` -/

@[simp] theorem answered_cfg (s : State) (r0 r1 : Nat) :
    (answered s r0 r1).cfg = s.cfg := rfl
@[simp] theorem answered_flt (s : State) (r0 r1 : Nat) :
    (answered s r0 r1).flt = s.flt := rfl
@[simp] theorem answered_fop (s : State) (r0 r1 : Nat) :
    (answered s r0 r1).fop = s.fop := rfl
@[simp] theorem answered_inflight (s : State) (r0 r1 : Nat) :
    (answered s r0 r1).inflight = none := rfl
@[simp] theorem answered_response (s : State) (r0 r1 : Nat) :
    (answered s r0 r1).response = some (.result (BitVec.ofNat 64 r0) (BitVec.ofNat 64 r1)) := rfl
@[simp] theorem answered_requests (s : State) (r0 r1 : Nat) :
    (answered s r0 r1).requests = s.requests := rfl
@[simp] theorem answered_resetIn (s : State) (r0 r1 : Nat) :
    (answered s r0 r1).resetIn = s.resetIn := rfl
@[simp] theorem answered_draws (s : State) (r0 r1 : Nat) :
    (answered s r0 r1).draws = s.draws := rfl

/-! ### `recorded` -/

@[simp] theorem recorded_cfg (s : State) (f : FaultCode) (op : Byte) :
    (recorded s f op).cfg = s.cfg := rfl
@[simp] theorem recorded_flt (s : State) (f : FaultCode) (op : Byte) :
    (recorded s f op).flt = f := rfl
@[simp] theorem recorded_fop (s : State) (f : FaultCode) (op : Byte) :
    (recorded s f op).fop = op := rfl
@[simp] theorem recorded_inflight (s : State) (f : FaultCode) (op : Byte) :
    (recorded s f op).inflight = none := rfl
@[simp] theorem recorded_response (s : State) (f : FaultCode) (op : Byte) :
    (recorded s f op).response = some (.fault f) := rfl
@[simp] theorem recorded_requests (s : State) (f : FaultCode) (op : Byte) :
    (recorded s f op).requests = s.requests := rfl
@[simp] theorem recorded_resetIn (s : State) (f : FaultCode) (op : Byte) :
    (recorded s f op).resetIn = s.resetIn := rfl
@[simp] theorem recorded_draws (s : State) (f : FaultCode) (op : Byte) :
    (recorded s f op).draws = s.draws := rfl

end Sys2Proof.Safety
end

