-- ==== Sys2Proof/Laws/Ops.lean ====
section
/-!
SUPPORT. What each shared operation can do, said once: reading an operand, delivering results, recording a fault, drawing, and
the operations a step is made of.
-/

namespace Sys2Proof.Machine

open Sys2Proof.Safety

/-! ### Widths and operands -/

/-- Every width select resolves to 32 or 64 (00_scope.md R12). -/
theorem resolveWidth_cases (cfg : Config) (wsel : WidthSel) : resolveWidth cfg wsel = 32 ∨ resolveWidth cfg wsel = 64 := by
  cases wsel
  · exact .inl rfl
  · exact .inr rfl
  · cases h : cfg.nativeW <;> simp [resolveWidth, h, Width.bits]

theorem resolveWidth_pos (cfg : Config) (wsel : WidthSel) : 0 < resolveWidth cfg wsel := by
  rcases resolveWidth_cases cfg wsel with h | h <;> omega

theorem resolveWidth_le (cfg : Config) (wsel : WidthSel) : resolveWidth cfg wsel ≤ 64 := by
  rcases resolveWidth_cases cfg wsel with h | h <;> omega

@[simp] theorem operand_toNat (w : Nat) (p : Word) : (operand w p).toNat = low w p := by
  simp [operand, low]

theorem low_lt (w : Nat) (p : Word) : low w p < 2 ^ w :=
  Nat.mod_lt _ (Nat.two_pow_pos w)

@[simp] theorem low_64 (p : Word) : low 64 p = p.toNat :=
  Nat.mod_eq_of_lt p.isLt

theorem operand_eq_zero_iff (w : Nat) (p : Word) : operand w p = 0 ↔ low w p = 0 := by
  simp [← BitVec.toNat_inj]

theorem operand_le_iff (w : Nat) (p q : Word) : operand w p ≤ operand w q ↔ low w p ≤ low w q := by
  simp [BitVec.le_def]

/-- The low bits of a result word are the result (30_encoding.md R68). -/
theorem low_zext64 {w : Nat} (hw : w ≤ 64) (r : BitVec w) : low w (zext64 r) = r.toNat := by
  have h := Nat.pow_le_pow_right (n := 2) (by omega) hw
  have hr := r.isLt
  simp only [low, zext64, BitVec.toNat_setWidth]
  rw [Nat.mod_eq_of_lt (a := r.toNat) (by omega), Nat.mod_eq_of_lt hr]

theorem zext64_toNat {w : Nat} (hw : w ≤ 64) (r : BitVec w) : (zext64 r).toNat = r.toNat := by
  have h := Nat.pow_le_pow_right (n := 2) (by omega) hw
  have hr := r.isLt
  simp only [zext64, BitVec.toNat_setWidth]
  exact Nat.mod_eq_of_lt (by omega)

/-! ### Delivering and recording -/

/-- Delivering two words is answering with their values. -/
theorem deliver_eq_answered (r0 r1 : Word) (s : State) : deliver r0 r1 s = answered s r0.toNat r1.toNat := by
  simp [deliver, answered]

/-- Delivering a pair of W-bit results answers with their values. -/
theorem deliverPair_eq {w : Nat} (r : BitVec w × BitVec w) (s : State) :
    deliverPair r s = .next (answered s r.1.toNat r.2.toNat) := by
  simp [deliverPair, deliver, answered, zext64]

/-- Delivering two draws answers with their W low bits and spends two (42_div.md R137). -/
theorem deliverDraws_eq (w : Nat) (s : State) :
    deliverDraws w s =
      { answered s (low w (Config.draw s.draws)) (low w (Config.draw (s.draws + 1))) with draws := s.draws + 2 } := by
  simp only [deliverDraws, answered, drawAt, low, ← BitVec.toNat_setWidth, BitVec.ofNat_toNat]

/-- In an unfaulted block recording a fault writes the latch (60_exceptions.md R165). -/
theorem raise_unfaulted {s : State} (h : s.flt = .none) (f : FaultCode) (op : Byte) :
    raise f op s = recorded s f op := by
  simp [raise, recorded, h]

/-- In a faulted block the latch keeps the first fault (60_exceptions.md R167). -/
theorem raise_faulted {s : State} (h : s.flt ≠ .none) (f : FaultCode) (op : Byte) :
    raise f op s = { s with inflight := none, response := some (.fault f) } := by
  simp [raise, h]

end Sys2Proof.Machine
end

