-- ==== Sys2Proof/Laws/Arith.lean ====
section
/-!
SUPPORT. The values of the core functions over exact integers, one lemma per function.
-/

namespace Sys2Proof.Machine

open Sys2Proof.Safety

/-- The top bit of a word, as the bit that a shift by W-1 leaves. -/
theorem ushiftRight_top_toNat {w : Nat} (hw : 0 < w) (v : BitVec w) : (v >>> (w - 1)).toNat = v.msb.toNat := by
  have hv : v.toNat < 2 * 2 ^ (w - 1) := by
    have := v.isLt
    rwa [← Nat.pow_succ', Nat.succ_eq_add_one, Nat.sub_add_cancel hw]
  rw [BitVec.toNat_ushiftRight, Nat.shiftRight_eq_div_pow, BitVec.msb_eq_decide]
  by_cases h : 2 ^ (w - 1) ≤ v.toNat
  · simp only [h, decide_true, Bool.toNat_true]
    exact Nat.div_eq_of_lt_le (by omega) (by omega)
  · simp only [h, decide_false, Bool.toNat_false]
    exact Nat.div_eq_of_lt (by omega)

/-! ### Addition and subtraction -/

theorem addCore_fst_toNat {w : Nat} (x y c : BitVec w) : (addCore x y c).1.toNat = sumOf w x.toNat y.toNat c.toNat := by
  simp [addCore, sumOf, BitVec.toNat_add]

theorem addCore_snd_toNat {w : Nat} (x y c : BitVec w) :
    (addCore x y c).2.toNat = carryOutOf w x.toNat y.toNat c.toNat := by
  simp [addCore, carryOut, carryOutOf, sumOf, BitVec.toNat_add]

/-- The carry-out as a formula over the three top bits (40_addsub.md R80). -/
theorem carryOut_toNat {w : Nat} (hw : 0 < w) (x y sum : BitVec w) :
    (carryOut x y sum).toNat = ((x.msb && y.msb) || ((x.msb || y.msb) && !sum.msb)).toNat := by
  simp [carryOut, ushiftRight_top_toNat hw, hw, BitVec.msb_not]

theorem subCore_fst_toNat {w : Nat} (x y b : BitVec w) :
    (subCore x y b).1.toNat = differenceOf w x.toNat y.toNat b.toNat := by
  have hx := x.isLt
  have hy := y.isLt
  have hb := b.isLt
  apply Int.ofNat.inj
  simp only [Int.ofNat_eq_natCast, subCore, differenceOf]
  rw [Int.toNat_of_nonneg (Int.emod_nonneg _ (by exact_mod_cast (Nat.two_pow_pos w).ne'))]
  rw [BitVec.toNat_sub, BitVec.toNat_sub]
  push_cast [Nat.cast_sub hy.le, Nat.cast_sub hb.le]
  exact (Int.ModEq.add_left _ (Int.mod_modEq _ _)).trans (Int.modEq_iff_dvd.mpr ⟨-2, by ring⟩)

theorem subCore_snd_toNat {w : Nat} (x y b : BitVec w) :
    (subCore x y b).2.toNat = borrowOutOf w x.toNat y.toNat b.toNat := by
  have h := subCore_fst_toNat x y b
  simp only [subCore] at h ⊢
  simp [borrowOut, borrowOutOf, ← h]

/-- The borrow-out as a formula over the three top bits (40_addsub.md R90). -/
theorem borrowOut_toNat {w : Nat} (hw : 0 < w) (x y difference : BitVec w) :
    (borrowOut x y difference).toNat = ((!x.msb && y.msb) || (!(x.msb ^^ y.msb) && difference.msb)).toNat := by
  simp [borrowOut, ushiftRight_top_toNat hw, hw, BitVec.msb_not]

/-! ### Multiplication and division -/

theorem mulCore_fst_toNat {w : Nat} (x y : BitVec w) : (mulCore x y).1.toNat = x.toNat * y.toNat / 2 ^ w := by
  have h : x.toNat * y.toNat / 2 ^ w < 2 ^ w :=
    Nat.div_lt_of_lt_mul (Nat.mul_lt_mul'' x.isLt y.isLt)
  simp [mulCore, Nat.mod_eq_of_lt h]

theorem mulCore_snd_toNat {w : Nat} (x y : BitVec w) : (mulCore x y).2.toNat = x.toNat * y.toNat % 2 ^ w := by
  simp [mulCore]

/-- The three input classes of the divide core (42_div.md R130). -/
theorem divCore_cases {w : Nat} (hi lo x : BitVec w) :
    (x = 0 ∧ divCore hi lo x = .divByZero) ∨
    (x ≠ 0 ∧ x.toNat ≤ hi.toNat ∧ divCore hi lo x = .overflow) ∨
    (x ≠ 0 ∧ hi.toNat < x.toNat ∧
      divCore hi lo x = .result (BitVec.ofNat w ((hi.toNat * 2 ^ w + lo.toNat) / x.toNat))
        (BitVec.ofNat w ((hi.toNat * 2 ^ w + lo.toNat) % x.toNat))) := by
  by_cases hx : x = 0
  · exact .inl ⟨hx, by simp [divCore, hx]⟩
  · by_cases h : x ≤ hi
    · exact .inr (.inl ⟨hx, BitVec.le_def.mp h, by simp only [divCore]; rw [if_neg hx, if_pos h]⟩)
    · refine .inr (.inr ⟨hx, ?_, by simp only [divCore]; rw [if_neg hx, if_neg h]⟩)
      rw [BitVec.le_def] at h
      omega

/-- A quotient with hi below the divisor fits in W bits. -/
theorem quotient_lt {w hi lo x : Nat} (hlo : lo < 2 ^ w) (h : hi < x) : (hi * 2 ^ w + lo) / x < 2 ^ w := by
  apply Nat.div_lt_of_lt_mul
  calc hi * 2 ^ w + lo < (hi + 1) * 2 ^ w := by rw [Nat.add_mul]; omega
    _ ≤ x * 2 ^ w := Nat.mul_le_mul_right _ h

end Sys2Proof.Machine
end

