-- ==== Sys2Proof/Laws/Assembler.lean ====
section
/-!
SUPPORT. What the reader of a written request does with a word and with what separates words, one lemma for each.
-/

namespace Sys2Proof.Machine

/-- A word's first character, and what is left. -/
theorem isWordText_cons {c : Char} {cs : List Char} (h : isWordText (c :: cs) = true) :
    c ≠ ';' ∧ c ≠ ',' ∧ c ≠ '-' ∧ c.isWhitespace = false ∧ (cs = [] ∨ isWordText cs = true) := by
  simp only [isWordText, List.isEmpty_cons, Bool.not_false, Bool.true_and, List.all_cons, Bool.and_eq_true,
    bne_iff_ne, ne_eq, Bool.not_eq_true'] at h ⊢
  obtain ⟨⟨⟨⟨h1, h2⟩, h3⟩, h4⟩, h5⟩ := h
  refine ⟨h1, h2, h3, h4, ?_⟩
  cases cs with
  | nil => exact .inl rfl
  | cons d ds => exact .inr ⟨by simp, h5⟩

theorem isWordText_append {a b : List Char} (ha : a = [] ∨ isWordText a = true) (hb : isWordText b = true) :
    isWordText (a ++ b) = true := by
  rcases ha with rfl | ha
  · exact hb
  · simp only [isWordText, Bool.and_eq_true, List.all_append] at *
    exact ⟨by cases b <;> simp_all, ha.2, hb.2⟩

/-- The characters of a word are gathered. -/
theorem tokens_gather {w : List Char} (h : isWordText w = true) (rest gathered : List Char) :
    tokens (w ++ rest) gathered = tokens rest (w.reverse ++ gathered) := by
  induction w generalizing gathered with
  | nil => simp [isWordText] at h
  | cons c cs ih =>
    obtain ⟨h1, h2, h3, h4, h5⟩ := isWordText_cons h
    have step : tokens (c :: (cs ++ rest)) gathered = tokens (cs ++ rest) (c :: gathered) := by
      rw [tokens.eq_def]
      split <;> simp_all
    rw [List.cons_append, step]
    rcases h5 with rfl | h5
    · rfl
    · rw [ih h5, List.reverse_cons, List.append_assoc, List.singleton_append]

/-- A gathered word is one token. -/
theorem endWord_reverse {w : List Char} (h : isWordText w = true) (rest : List Token) :
    endWord (w.reverse ++ []) rest = .word w :: rest := by
  have hr : (w.reverse ++ []).reverse = w := by simp
  cases hw : w.reverse ++ [] with
  | nil => cases w <;> simp [isWordText] at h hw
  | cons c cs => simp only [endWord, ← hw, hr]

/-! ### What ends a word: the end of the line, a comma, white space -/

theorem tokens_word_end {w : List Char} (h : isWordText w = true) : tokens w [] = [.word w] := by
  have := tokens_gather h [] []
  rw [List.append_nil] at this
  rw [this, tokens, endWord_reverse h]

theorem tokens_word_comma {w : List Char} (h : isWordText w = true) (rest : List Char) :
    tokens (w ++ ',' :: rest) [] = .word w :: .comma :: tokens rest [] := by
  rw [tokens_gather h, tokens]
  · simp only [Char.reduceEq, if_false, if_true]; exact endWord_reverse h _
  · simp

theorem tokens_word_space {w : List Char} (h : isWordText w = true) (rest : List Char) :
    tokens (w ++ ' ' :: rest) [] = .word w :: tokens rest [] := by
  rw [tokens_gather h, tokens]
  · rw [if_neg (by decide), if_neg (by decide), if_pos (by decide)]; exact endWord_reverse h _
  · simp

/-! ### What stands between words -/

theorem tokens_space (rest : List Char) : tokens (' ' :: rest) [] = tokens rest [] := by
  rw [tokens]
  · rw [if_neg (by decide), if_neg (by decide), if_pos (by decide)]; rfl
  · simp

theorem tokens_arrow (rest : List Char) : tokens ('-' :: '>' :: rest) [] = .arrow :: tokens rest [] := by
  rw [tokens]; rfl

theorem tokens_comment (rest : List Char) : tokens (';' :: rest) [] = [] := by
  rw [tokens]
  · rfl
  · simp

end Sys2Proof.Machine
end

