-- ==== Sys2Proof/Laws/Decode.lean ====
section
/-!
SUPPORT. What the decoder can answer, said once: the fields of an opcode byte, and the inversion of a successful decoding.
-/

namespace Sys2Proof

@[simp] theorem buildInstr_family (fam : Family) (wsel : WidthSel) (a b c : Word) :
    (buildInstr fam wsel a b c).family = fam := by
  cases fam <;> cases wsel <;> rfl

@[simp] theorem buildInstr_widthSel (fam : Family) (wsel : WidthSel) (a b c : Word) :
    (buildInstr fam wsel a b c).widthSel = wsel := by
  cases fam <;> cases wsel <;> rfl

@[simp] theorem buildInstr_operands (fam : Family) (wsel : WidthSel) (a b c : Word) :
    (buildInstr fam wsel a b c).operands = (a, b, c) := by
  cases fam <;> cases wsel <;> rfl

/-- Every instruction is built from its own fields. -/
theorem buildInstr_fields (i : Instr) :
    buildInstr i.family i.widthSel i.operands.1 i.operands.2.1 i.operands.2.2 = i := by
  cases i <;> rfl

/-- The fields of an opcode byte (30_encoding.md R62). -/
theorem opcodeByte_fields (fam : Family) (wsel : WidthSel) :
    (opcodeByte fam wsel).extractLsb' 0 2 = encodeFamily fam ∧
    (opcodeByte fam wsel).extractLsb' 2 2 = encodeWidthSel wsel ∧
    (opcodeByte fam wsel).extractLsb' 4 4 = 0b0000#4 := by
  cases fam <;> cases wsel <;> decide

/-- The opcode byte's fields read back (30_encoding.md R62). -/
theorem decodeOpcode_opcodeByte (fam : Family) (wsel : WidthSel) :
    decodeOpcode (opcodeByte fam wsel) = .ok (fam, wsel) := by
  cases fam <;> cases wsel <;> rfl

/-- A decoded opcode byte is the byte of the fields it decodes to: no other byte decodes (30_encoding.md R64). -/
theorem opcodeByte_of_decodeOpcode {op : Byte} {fam : Family} {wsel : WidthSel}
    (h : decodeOpcode op = .ok (fam, wsel)) : op = opcodeByte fam wsel := by
  have all : ∀ op : Byte, (decodeOpcode op).toOption.all (fun p => op == opcodeByte p.1 p.2) = true := by decide +kernel
  simpa [h, Except.toOption] using all op

/-- Inversion of a successful decoding: the request's opcode byte is that of the instruction, and its operand words are the
instruction's. -/
theorem decodeRequest_ok {r : Request} {i : Instr} (h : decodeRequest r = .ok i) :
    r.op = opcodeByte i.family i.widthSel ∧ i.operands = (r.a, r.b, r.c) := by
  unfold decodeRequest at h
  split at h
  · cases h
  · next fam wsel hop =>
    cases h
    simpa using opcodeByte_of_decodeOpcode hop

end Sys2Proof
end

