-- ==== Sys2Proof/Laws/Exec.lean ====
section
/-!
SUPPORT. What the meanings can do, said once: the operation each family's three instructions share, its answer, and the
inversion `exec_outcome` of every instruction's outcome.
-/

namespace Sys2Proof.Machine

open Sys2Proof.Safety

/-! ### The operation behind an instruction -/

theorem exec_add (wsel : WidthSel) (x y c : Word) (s : State) :
    exec (buildInstr .add wsel x y c) s = addAt (resolveWidth s.cfg wsel) x y c s := by
  cases wsel <;> rfl

theorem exec_sub (wsel : WidthSel) (x y c : Word) (s : State) :
    exec (buildInstr .sub wsel x y c) s = subAt (resolveWidth s.cfg wsel) x y c s := by
  cases wsel <;> rfl

theorem exec_mul (wsel : WidthSel) (x y c : Word) (s : State) :
    exec (buildInstr .mul wsel x y c) s = mulAt (resolveWidth s.cfg wsel) x y s := by
  cases wsel <;> rfl

theorem exec_div (wsel : WidthSel) (hi lo x : Word) (s : State) :
    exec (buildInstr .div wsel hi lo x) s = divAt (resolveWidth s.cfg wsel) (opcodeByte .div wsel) hi lo x s := by
  cases wsel <;> rfl

/-- A statement about every instruction is one about every family, width select and operands. -/
theorem forall_instr {p : Instr → Prop} (h : ∀ fam wsel a b c, p (buildInstr fam wsel a b c)) (i : Instr) : p i :=
  buildInstr_fields i ▸ h _ _ _ _ _

/-! ### Its answer -/

theorem addAt_eq (w : Nat) (x y c : Word) (s : State) :
    addAt w x y c s = .next (answered s (sumOf w (low w x) (low w y) (low w c))
      (carryOutOf w (low w x) (low w y) (low w c))) := by
  simp [addAt, deliverPair_eq, addCore_fst_toNat, addCore_snd_toNat]

theorem subAt_eq (w : Nat) (x y b : Word) (s : State) :
    subAt w x y b s = .next (answered s (differenceOf w (low w x) (low w y) (low w b))
      (borrowOutOf w (low w x) (low w y) (low w b))) := by
  simp [subAt, deliverPair_eq, subCore_fst_toNat, subCore_snd_toNat]

theorem mulAt_eq (w : Nat) (x y : Word) (s : State) :
    mulAt w x y s = .next (answered s (low w x * low w y / 2 ^ w) (low w x * low w y % 2 ^ w)) := by
  simp [mulAt, deliverPair_eq, mulCore_fst_toNat, mulCore_snd_toNat]

/-- The three input classes of a divide (42_div.md R130). -/
theorem divAt_cases (w : Nat) (op : Byte) (hi lo x : Word) (s : State) :
    (low w x = 0 ∧ divAt w op hi lo x s = .next (raise .divByZero op s)) ∨
    (low w x ≠ 0 ∧ low w x ≤ low w hi ∧ divAt w op hi lo x s = quotientOverflow w op s) ∨
    (low w x ≠ 0 ∧ low w hi < low w x ∧
      divAt w op hi lo x s =
        .next (answered s ((low w hi * 2 ^ w + low w lo) / low w x) ((low w hi * 2 ^ w + low w lo) % low w x))) := by
  have hz := operand_eq_zero_iff w x
  rcases divCore_cases (operand w hi) (operand w lo) (operand w x) with ⟨h, e⟩ | ⟨h, h', e⟩ | ⟨h, h', e⟩
  · exact .inl ⟨hz.mp h, by simp only [divAt, e]⟩
  · exact .inr (.inl ⟨fun k => h (hz.mpr k), by simpa using h', by simp only [divAt, e]⟩)
  · simp only [operand_toNat] at h' e
    have hq := quotient_lt (low_lt w lo) h'
    have hr : (low w hi * 2 ^ w + low w lo) % low w x < 2 ^ w :=
      (Nat.mod_lt _ (by omega)).trans (low_lt w x)
    refine .inr (.inr ⟨fun k => h (hz.mpr k), h', ?_⟩)
    simp only [divAt, e, deliverPair_eq, BitVec.toNat_ofNat, Nat.mod_eq_of_lt hq, Nat.mod_eq_of_lt hr]

/-- What a divide can do: it goes on, answers, keeps the configuration and what the host drives, and either delivers words and
leaves the latch or takes one of its two faults. Draws are spent on an unchecked overflow only. -/
theorem divAt_outcome (w : Nat) (op : Byte) (hi lo x : Word) (s : State) :
    ∃ t, divAt w op hi lo x s = .next t ∧
      t.inflight = none ∧ t.cfg = s.cfg ∧ t.requests = s.requests ∧ t.resetIn = s.resetIn ∧
      ((∃ r0 r1, t.response = some (.result r0 r1) ∧ t.flt = s.flt ∧ t.fop = s.fop) ∨
        (∃ f, t = raise f op s ∧
          (f = .divByZero ∨
            f = .quotientOverflow ∧ s.cfg.divOvfCheck = true ∧ low w x ≠ 0 ∧ low w x ≤ low w hi))) ∧
      (low w x = 0 ∨ low w hi < low w x ∨ s.cfg.divOvfCheck = true → t.draws = s.draws) := by
  rcases divAt_cases w op hi lo x s with ⟨_, e⟩ | ⟨h, h', e⟩ | ⟨_, _, e⟩
  · exact ⟨_, e, rfl, rfl, rfl, rfl, .inr ⟨_, rfl, .inl rfl⟩, fun _ => rfl⟩
  · rw [e, quotientOverflow]
    by_cases hc : s.cfg.divOvfCheck = true
    · rw [if_pos hc]
      exact ⟨_, rfl, rfl, rfl, rfl, rfl, .inr ⟨_, rfl, .inr ⟨rfl, hc, h, h'⟩⟩, fun _ => rfl⟩
    · rw [if_neg hc]
      refine ⟨_, rfl, rfl, rfl, rfl, rfl, .inl ⟨_, _, rfl, rfl, rfl⟩, ?_⟩
      rintro (k | k | k)
      · exact absurd k h
      · omega
      · exact absurd k hc
  · exact ⟨_, e, rfl, rfl, rfl, rfl, .inl ⟨_, _, rfl, rfl, rfl⟩, fun _ => rfl⟩

/-- What an instruction can do, in every state. -/
theorem exec_outcome (i : Instr) (s : State) :
    ∃ t, exec i s = .next t ∧
      t.inflight = none ∧ t.cfg = s.cfg ∧ t.requests = s.requests ∧ t.resetIn = s.resetIn ∧
      ((∃ r0 r1, t.response = some (.result r0 r1) ∧ t.flt = s.flt ∧ t.fop = s.fop) ∨
        (∃ f, t = raise f (opcodeByte i.family i.widthSel) s ∧ i.family = .div ∧
          (f = .divByZero ∨ f = .quotientOverflow ∧ s.cfg.divOvfCheck = true ∧ overflows s.cfg i = true))) ∧
      (i.family ≠ .div ∨ overflows s.cfg i = false ∨ s.cfg.divOvfCheck = true → t.draws = s.draws) ∧
      (i.family ≠ .div → ∃ r0 r1 : Word, t = { s with inflight := none, response := some (.result r0 r1) }) := by
  revert i
  refine forall_instr fun fam wsel a b c => ?_
  cases fam
  · rw [exec_add, addAt_eq]
    exact ⟨_, rfl, rfl, rfl, rfl, rfl, .inl ⟨_, _, rfl, rfl, rfl⟩, fun _ => rfl, fun _ => ⟨_, _, rfl⟩⟩
  · rw [exec_sub, subAt_eq]
    exact ⟨_, rfl, rfl, rfl, rfl, rfl, .inl ⟨_, _, rfl, rfl, rfl⟩, fun _ => rfl, fun _ => ⟨_, _, rfl⟩⟩
  · rw [exec_mul, mulAt_eq]
    exact ⟨_, rfl, rfl, rfl, rfl, rfl, .inl ⟨_, _, rfl, rfl, rfl⟩, fun _ => rfl, fun _ => ⟨_, _, rfl⟩⟩
  · rw [exec_div]
    obtain ⟨t, h1, h2, h3, h4, h5, h6, h7⟩ :=
      divAt_outcome (resolveWidth s.cfg wsel) (opcodeByte .div wsel) a b c s
    simp only [buildInstr_family, buildInstr_widthSel, overflows, buildInstr_operands]
    refine ⟨t, h1, h2, h3, h4, h5, ?_, fun h => h7 ?_, fun h => absurd rfl h⟩
    · rcases h6 with h6 | ⟨f, e, h6 | ⟨k, k', k'', k'''⟩⟩
      · exact .inl h6
      · exact .inr ⟨f, e, trivial, .inl h6⟩
      · exact .inr ⟨f, e, trivial, .inr ⟨k, k', by simp [k'', k''']⟩⟩
    · rcases h with h | h | h
      · exact absurd rfl h
      · by_cases hz : low (resolveWidth s.cfg wsel) c = 0
        · exact .inl hz
        · exact .inr (.inl (by simpa [hz] using h))
      · exact .inr (.inr h)

end Sys2Proof.Machine
end

