-- ==== Sys2Proof/Laws/PerInstr.lean ====
section
/-!
SUPPORT. The family of statements made per instruction: the opcode byte of an instruction's encoding holds its family, its
width select and RSV = 0000 in the fields of spec/30_encoding.md R62, and its operand words stand in the request's A, B and C.
-/

namespace Sys2Proof.Laws.RequestFields

/-- The request that encodes `i` holds the fields of 30_encoding.md R62 and the operands of R67. -/
def Statement (i : Instr) : Prop :=
  ((encodeRequest i).op.extractLsb' 0 2 = encodeFamily i.family ∧
  (encodeRequest i).op.extractLsb' 2 2 = encodeWidthSel i.widthSel ∧
  (encodeRequest i).op.extractLsb' 4 4 = 0b0000#4) ∧
  i.operands = ((encodeRequest i).a, (encodeRequest i).b, (encodeRequest i).c)

theorem add32 (x y carry : Word) : Statement (.add32 x y carry) := ⟨opcodeByte_fields .add .w32, rfl⟩
theorem sub32 (x y borrow : Word) : Statement (.sub32 x y borrow) := ⟨opcodeByte_fields .sub .w32, rfl⟩
theorem mul32 (x y c : Word) : Statement (.mul32 x y c) := ⟨opcodeByte_fields .mul .w32, rfl⟩
theorem div32 (hi lo x : Word) : Statement (.div32 hi lo x) := ⟨opcodeByte_fields .div .w32, rfl⟩
theorem add64 (x y carry : Word) : Statement (.add64 x y carry) := ⟨opcodeByte_fields .add .w64, rfl⟩
theorem sub64 (x y borrow : Word) : Statement (.sub64 x y borrow) := ⟨opcodeByte_fields .sub .w64, rfl⟩
theorem mul64 (x y c : Word) : Statement (.mul64 x y c) := ⟨opcodeByte_fields .mul .w64, rfl⟩
theorem div64 (hi lo x : Word) : Statement (.div64 hi lo x) := ⟨opcodeByte_fields .div .w64, rfl⟩
theorem add (x y carry : Word) : Statement (.add x y carry) := ⟨opcodeByte_fields .add .native, rfl⟩
theorem sub (x y borrow : Word) : Statement (.sub x y borrow) := ⟨opcodeByte_fields .sub .native, rfl⟩
theorem mul (x y c : Word) : Statement (.mul x y c) := ⟨opcodeByte_fields .mul .native, rfl⟩
theorem div (hi lo x : Word) : Statement (.div hi lo x) := ⟨opcodeByte_fields .div .native, rfl⟩

end Sys2Proof.Laws.RequestFields
end

