-- ==== Sys2Proof/Laws/Step.lean ====
section
/-!
SUPPORT. What one step can do: each of its branches, and the inversion `step_outcome` of a step that goes on.
-/

namespace Sys2Proof.Machine

theorem isFaulted_eq_false_iff (s : State) : isFaulted s = false ↔ s.flt = .none := by
  simp [isFaulted]

theorem step_reset {s : State} (h : resetAsserted s = true) : step s = .next (applyReset s) := by
  simp [step, h]

theorem step_idle {s : State} (h1 : s.inflight = none) (h2 : resetAsserted s = false) :
    step s = idleOrAccept (beginStep s) := by
  unfold step
  rw [h2, h1]
  rfl

theorem step_request {s : State} {r : Request} (h1 : s.inflight = some r) (h2 : resetAsserted s = false)
    (h3 : s.flt = .none) :
    step s =
      match decodeRequest r with
      | .error _ => .next (raise .illegalOp r.op (beginStep s))
      | .ok i => exec i (beginStep s) := by
  unfold step
  rw [h2, h1, (isFaulted_eq_false_iff s).mpr h3]
  rfl

/-- What a step that goes on did: reset, nothing, accept, execute, or take ILLEGAL_OP. -/
theorem step_outcome {s t : State} (h : step s = .next t) :
    (resetAsserted s = true ∧ t = applyReset s) ∨
    (resetAsserted s = false ∧ s.inflight = none ∧ s.requests = [] ∧ t = beginStep s) ∨
    (resetAsserted s = false ∧ s.inflight = none ∧ s.flt = .none ∧
      ∃ r rest, s.requests = r :: rest ∧ t = accept r rest (beginStep s)) ∨
    (resetAsserted s = false ∧ s.flt = .none ∧ ∃ r, s.inflight = some r ∧
      ((∃ i, decodeRequest r = .ok i ∧ exec i (beginStep s) = .next t) ∨
        (∃ e, decodeRequest r = .error e ∧ t = raise .illegalOp r.op (beginStep s)))) := by
  unfold step at h
  split at h
  · next hr =>
    cases h
    exact .inl ⟨hr, rfl⟩
  · next hr =>
    rw [Bool.not_eq_true] at hr
    split at h
    · next hi =>
      unfold idleOrAccept at h
      split at h
      · next he =>
        cases h
        exact .inr (.inl ⟨hr, hi, he, rfl⟩)
      · next r rest he =>
        split at h
        · cases h
        · next hf =>
          cases h
          exact .inr (.inr (.inl ⟨hr, hi, by simpa [isFaulted] using hf, r, rest, he, rfl⟩))
    · next r hi =>
      split at h
      · cases h
      · next hf =>
        refine .inr (.inr (.inr ⟨hr, by simpa [isFaulted] using hf, r, hi, ?_⟩))
        split at h
        · next e he =>
          cases h
          exact .inr ⟨e, he, rfl⟩
        · next i he => exact .inl ⟨i, he, h⟩

end Sys2Proof.Machine
end

