-- ==== Sys2Proof/Laws/System.lean ====
section
/-!
SUPPORT. What a step of a system of instances can do, said once.
-/

namespace Sys2Proof.Machine

/-- A step of a system is the step of one instance, set in its place. -/
theorem systemStep_eq_some_iff {sys sys' : List State} {k : Nat} :
    systemStep k sys = some sys' ↔ ∃ s t, sys[k]? = some s ∧ step s = .next t ∧ sys' = sys.set k t := by
  unfold systemStep
  cases sys[k]? with
  | none => simp
  | some s => cases hs : step s <;> simp [hs, eq_comm]

/-- An instance that is there reads back what is set in its place. -/
theorem getElem?_set_of_getElem? {sys : List State} {k : Nat} {s : State} (h : sys[k]? = some s) (t : State) :
    (sys.set k t)[k]? = some t := by
  obtain ⟨hk, _⟩ := List.getElem?_eq_some_iff.mp h
  simp [hk]

end Sys2Proof.Machine
end

