-- ==== Sys2Proof/Tests/Slice0.lean ====
section
/-!
SUPPORT. Tests of the model against values written out from spec/ (each test names the vector or rule it takes them from), and
after them one witness per statement with hypotheses: a concrete state and operands that meet them together, one per clause.
-/

namespace Sys2Proof.Tests

open Sys2Proof.Machine Sys2Proof.Safety

/-! ### Helpers -/

/-- A configuration: native width, overflow check. -/
def cfg32 : Config := { nativeW := .w32, divOvfCheck := false }
def cfg64 : Config := { nativeW := .w64, divOvfCheck := false }
def checked : Config := { nativeW := .w64, divOvfCheck := true }

/-- The block right after reset with a packed request C:B:A:OP in flight. -/
def flying (cfg : Config) (req : BitVec 200) : State :=
  { State.resetWith cfg with inflight := some (unpackRequest req) }

/-- The block right after reset with packed requests at its ports. -/
def presenting (cfg : Config) (reqs : List (BitVec 200)) : State :=
  { State.resetWith cfg with requests := reqs.map unpackRequest }

/-- A block that has recorded the division by zero of V-F2. -/
def faulted : State := { State.reset with flt := .divByZero, fop := 0x07#8 }

/-- What one step answers. -/
def answer (s : State) : Option Response := responseOf (step s)

/-- STATUS after one step that goes on. -/
def statusAfter (s : State) : Option (BitVec 16) :=
  match step s with
  | .next t => some (statusWord t)
  | .fault _ => none
  | .refused _ => none

/-- The step goes on to exactly this state. -/
def stepsTo (s t : State) : Bool :=
  match step s with
  | .next u => u == t
  | .fault _ => false
  | .refused _ => false

/-- The step stops as blockFaulted. -/
def stuck (s : State) : Bool :=
  match step s with
  | .next _ => false
  | .fault .blockFaulted => true
  | .refused _ => false

/-! ### Well-formedness: a term that each check refuses (30_encoding.md R72) -/

theorem test_wf_mul32 : (Instr.mul32 6 7 0).wellFormed = true ∧ (Instr.mul32 6 7 1).wellFormed = false := by decide
theorem test_wf_mul64 : (Instr.mul64 6 7 0).wellFormed = true ∧ (Instr.mul64 6 7 1).wellFormed = false := by decide
theorem test_wf_mul : (Instr.mul 6 7 0).wellFormed = true ∧ (Instr.mul 6 7 0x8000000000000000#64).wellFormed = false := by
  decide
theorem test_wf_others : (Instr.add32 1 2 3).wellFormed = true ∧ (Instr.sub64 1 2 3).wellFormed = true ∧
    (Instr.div 1 2 3).wellFormed = true := by decide

/-! ### Decoding: one packed word C:B:A:OP per constructor, from 95_test_vectors.md -/

/-- V-A8 -/
theorem test_decode_add32 : decode 0x00000000FFFFFFFF000000000000000000000000FFFFFFFF00#200 =
    .ok (.add32 0xFFFFFFFF#64 0 0xFFFFFFFF#64) := by rfl
/-- V-S8 -/
theorem test_decode_sub32 : decode 0x00000000FFFFFFFF0000000000000000000000000000000501#200 =
    .ok (.sub32 5 0 0xFFFFFFFF#64) := by rfl
/-- V-M6 -/
theorem test_decode_mul32 : decode 0x00000000000000000000000200000005000000010000000302#200 =
    .ok (.mul32 0x100000003#64 0x200000005#64 0) := by rfl
/-- V-D5 -/
theorem test_decode_div32 : decode 0x000000009ABCDEF000000000242D2080000000000B00EA4E03#200 =
    .ok (.div32 0xB00EA4E#64 0x242D2080#64 0x9ABCDEF0#64) := by rfl
/-- L1-6 -/
theorem test_decode_add64 : decode 0x00000000000000015555555555555555AAAAAAAAAAAAAAAA04#200 =
    .ok (.add64 0xAAAAAAAAAAAAAAAA#64 0x5555555555555555#64 1) := by rfl
/-- L1-8 -/
theorem test_decode_sub64 : decode 0x0000000000000001AAAAAAAAAAAAAAAAFFFFFFFFFFFFFFFF05#200 =
    .ok (.sub64 0xFFFFFFFFFFFFFFFF#64 0xAAAAAAAAAAAAAAAA#64 1) := by rfl
/-- V-M11 -/
theorem test_decode_mul64 : decode 0x0000000000000000FEDCBA98765432100123456789ABCDEF06#200 =
    .ok (.mul64 0x0123456789ABCDEF#64 0xFEDCBA9876543210#64 0) := by rfl
/-- V-D17 -/
theorem test_decode_div64 : decode 0xFEDCBA98765432102236D88FE5618CF00121FA00AD77D74207#200 =
    .ok (.div64 0x0121FA00AD77D742#64 0x2236D88FE5618CF0#64 0xFEDCBA9876543210#64) := by rfl
/-- V-A15 -/
theorem test_decode_add : decode 0x0000000000000000000000000000000100000000FFFFFFFF08#200 =
    .ok (.add 0xFFFFFFFF#64 1 0) := by rfl
/-- V-S13 -/
theorem test_decode_sub : decode 0x00000000000000000000000000000001000000000000000009#200 =
    .ok (.sub 0 1 0) := by rfl
/-- V-M12 -/
theorem test_decode_mul : decode 0x0000000000000000000000000001000000000000000100000A#200 =
    .ok (.mul 0x10000 0x10000 0) := by rfl
/-- V-D18 -/
theorem test_decode_div : decode 0x0000000000000007000000000000006400000000000000000B#200 =
    .ok (.div 0 0x64 7) := by rfl

/-- V-F5, V-F6, V-F7, and a request of the wrong length (R71): refused by name. -/
theorem test_decode_refuses :
    decode 0x0000000000000003000000000000000200000000000000010C#200 = .error (.reservedWidth 0x0C#8) ∧
    decode 0x00000000000000030000000000000002000000000000000114#200 = .error (.reservedBits 0x14#8) ∧
    decode 0x000000000000000000000000000000000000000000000000FF#200 = .error (.reservedBits 0xFF#8) ∧
    decodeSerial 192 0x04 = .error (.wrongLength 192) := ⟨rfl, rfl, rfl, rfl⟩

/-- R72: a MUL takes two operands and encodes C = 0; the others take three; no other count and no other name (R73). -/
theorem test_assemble : assembleLine "MUL64" [6, 7] = some (.mul64 6 7 0) ∧ assembleLine "MUL64" [6, 7, 0] = none ∧
    assembleLine "DIV32" [0, 10, 3] = some (.div32 0 10 3) ∧ assembleLine "ADD" [5, 7] = none ∧
    assembleLine "add" [5, 7, 1] = none ∧ assembleLine "NOP" [] = none := by decide

/-- R74's line, read as text; a literal of 65 bits, an unbound name and a missing operand are refused. -/
theorem test_assemble_text :
    assembleText [] "ADD64 0xFFFFFFFFFFFFFFFF, 0, 1 ; R74".toList =
      some { instr := .add64 0xFFFFFFFFFFFFFFFF#64 0 1, results := none } ∧
    assembleText [] "ADD64 0x10000000000000000, 0, 1".toList = none ∧ assembleText [] "ADD64 X, 0, 1".toList = none ∧
    assembleText [] "ADD64 1, 0,".toList = none := by decide

/-- R72: the source's call with its results after the arrow, `DIV32 0, 10, 3 -> 3, 1`. The literals there are taken as names, and
bind nothing that a later line could find (log entry 14); a name given to both results holds R0 (log entry 15). -/
theorem test_assemble_results :
    assembleText [] "DIV32 0, 10, 3 -> 3, 1".toList =
      some { instr := .div32 0 10 3, results := some ("3".toList, "1".toList) } ∧
    operandValue (bindResults { instr := .div32 0 10 3, results := some ("3".toList, "1".toList) } (.result 7 8) [])
      "3".toList = some 3 ∧
    operandValue (bindResults { instr := .div32 0 10 3, results := some ("x".toList, "x".toList) } (.result 7 8) [])
      "x".toList = some 7 := by decide

/-- An opcode-table word is the opcode byte with operands 0: the row of DIV64 (R64), and a byte of no row (R69). -/
theorem test_table_word : decodeTableWord 8 0x07 = some (.div64 0 0 0) ∧ decodeTableWord 8 0x0C = none := by decide

/-- The next step runs the table word: V-F2, and V-A1 in a block that was faulted. -/
theorem test_fetch_word : answer (State.reset.withFetchWord 8 0x07) = some (.fault .divByZero) ∧
    answer (faulted.withFetchWord 8 0x00) = some (.result 0 0) := by decide

/-! ### One step per instruction, from the packed vectors of 95_test_vectors.md part 2 -/

/-- V-A8: a wide carry follows the formula. -/
theorem test_add32_wide_carry :
    answer (flying cfg64 0x00000000FFFFFFFF000000000000000000000000FFFFFFFF00#200) =
      some (.result 0xFFFFFFFE#64 0) := by decide
/-- V-A7: bits 63:32 are ignored. -/
theorem test_add32_upper :
    answer (flying cfg64 0x0000000000000000AAAAAAAA00000003FFFFFFFF0000000500#200) = some (.result 8 0) := by decide
/-- V-A14: a carry beyond 32 bits is not truncated. -/
theorem test_add64_wide_carry :
    answer (flying cfg32 0x0000000100000000000000000000000000000000FFFFFFFF04#200) =
      some (.result 0x1FFFFFFFF#64 0) := by decide
/-- V-A12 -/
theorem test_add64_largest :
    answer (flying cfg64 0x0000000000000001FFFFFFFFFFFFFFFFFFFFFFFFFFFFFFFF04#200) =
      some (.result 0xFFFFFFFFFFFFFFFF#64 1) := by decide
/-- V-A15, V-A16: the same request at either native width. -/
theorem test_add_native :
    answer (flying cfg32 0x0000000000000000000000000000000100000000FFFFFFFF08#200) = some (.result 0 1) ∧
    answer (flying cfg64 0x0000000000000000000000000000000100000000FFFFFFFF08#200) = some (.result 0x100000000#64 0) := by
  decide
/-- V-S8: a wide borrow follows the formula. -/
theorem test_sub32_wide_borrow :
    answer (flying cfg64 0x00000000FFFFFFFF0000000000000000000000000000000501#200) = some (.result 6 0) := by decide
/-- V-S6 -/
theorem test_sub32_sign :
    answer (flying cfg64 0x00000000000000000000000080000000000000007FFFFFFF01#200) =
      some (.result 0xFFFFFFFF#64 1) := by decide
/-- L1-8 -/
theorem test_sub64 :
    answer (flying cfg64 0x0000000000000001AAAAAAAAAAAAAAAAFFFFFFFFFFFFFFFF05#200) =
      some (.result 0x5555555555555554#64 0) := by decide
/-- V-S10: a borrow across the halves. -/
theorem test_sub64_halves :
    answer (flying cfg32 0x00000000000000000000000000000001000000010000000005#200) =
      some (.result 0xFFFFFFFF#64 0) := by decide
/-- V-S13, V-S14 -/
theorem test_sub_native :
    answer (flying cfg32 0x00000000000000000000000000000001000000000000000009#200) = some (.result 0xFFFFFFFF#64 1) ∧
    answer (flying cfg64 0x00000000000000000000000000000001000000000000000009#200) =
      some (.result 0xFFFFFFFFFFFFFFFF#64 1) := by decide
/-- V-M5 -/
theorem test_mul32 :
    answer (flying cfg64 0x0000000000000000000000009ABCDEF0000000001234567802#200) =
      some (.result 0xB00EA4E#64 0x242D2080#64) := by decide
/-- V-M6, with a C that no MUL reads (R67). -/
theorem test_mul32_reads_no_c :
    answer (flying cfg64 0xDEADBEEFDEADBEEF0000000200000005000000010000000302#200) = some (.result 0 0xF) := by decide
/-- V-M11 -/
theorem test_mul64 :
    answer (flying cfg32 0x0000000000000000FEDCBA98765432100123456789ABCDEF06#200) =
      some (.result 0x121FA00AD77D742#64 0x2236D88FE5618CF0#64) := by decide
/-- V-M7 -/
theorem test_mul64_largest :
    answer (flying cfg64 0x0000000000000000FFFFFFFFFFFFFFFFFFFFFFFFFFFFFFFF06#200) =
      some (.result 0xFFFFFFFFFFFFFFFE#64 1) := by decide
/-- V-M12, V-M13 -/
theorem test_mul_native :
    answer (flying cfg32 0x0000000000000000000000000001000000000000000100000A#200) = some (.result 1 0) ∧
    answer (flying cfg64 0x0000000000000000000000000001000000000000000100000A#200) =
      some (.result 0 0x100000000#64) := by decide
/-- V-D8: bits 63:32 are ignored. -/
theorem test_div32_upper :
    answer (flying cfg64 0x0000000100000003000000000000000A000000010000000003#200) = some (.result 3 1) := by decide
/-- V-F3: C[31:0] = 0 is a zero divisor, and STATUS records it. -/
theorem test_div32_zero :
    answer (flying cfg64 0x00000001000000000000000000000002000000000000000103#200) = some (.fault .divByZero) ∧
    statusAfter (flying cfg64 0x00000001000000000000000000000002000000000000000103#200) = some 0x0301#16 := by decide
/-- V-D13 -/
theorem test_div64 :
    answer (flying cfg32 0x7FFFFFFFFFFFFFFF800000000000000000000000FFFFFFFF07#200) =
      some (.result 0x1FFFFFFFF#64 0x1FFFFFFFF#64) := by decide
/-- V-F12: hi = x is overflow, under the check. -/
theorem test_div64_checked_overflow :
    answer (flying checked 0x00000000000000030000000000000000000000000000000307#200) =
      some (.fault .quotientOverflow) ∧
    statusAfter (flying checked 0x00000000000000030000000000000000000000000000000307#200) = some 0x0703#16 := by decide
/-- V-D18, V-D19 -/
theorem test_div_native :
    answer (flying cfg32 0x0000000000000007000000000000006400000000000000000B#200) = some (.result 0xE 2) ∧
    answer (flying cfg64 0x0000000000000007000000000000006400000000000000000B#200) = some (.result 0xE 2) := by decide
/-- V-F4: FOP records the native byte. -/
theorem test_div_native_zero :
    statusAfter (flying cfg32 0x0000000000000000000000000000000000000000000000000B#200) = some 0x0B01#16 := by decide

/-! ### Reserved bytes, overflow without the check, the faulted state, reset -/

/-- V-F5, V-F6, V-F7 -/
theorem test_reserved :
    answer (flying cfg64 0x0000000000000003000000000000000200000000000000010C#200) = some (.fault .illegalOp) ∧
    statusAfter (flying cfg64 0x0000000000000003000000000000000200000000000000010C#200) = some 0x0C02#16 ∧
    statusAfter (flying cfg64 0x00000000000000030000000000000002000000000000000114#200) = some 0x1402#16 ∧
    statusAfter (flying cfg64 0x000000000000000000000000000000000000000000000000FF#200) = some 0xFF02#16 := by decide

/-- V-F8: without the check a quotient overflow is answered with result words that have no stated value, and no fault. -/
theorem test_overflow_draws : (answer (flying cfg64 0x00000000000000050000000000000000000000000000000503#200)).map faultField =
    some 0 ∧
    statusAfter (flying cfg64 0x00000000000000050000000000000000000000000000000503#200) = some 0x0000#16 := ⟨rfl, rfl⟩

/-- P5: ADD64 1, 1, 0 is not accepted while faulted; reset at that moment leaves STATUS 0x0000 and the request at the ports. -/
theorem test_faulted_then_reset :
    stuck { faulted with requests := [unpackRequest 0x00000000000000000000000000000001000000000000000104#200] } = true ∧
    stepsTo { faulted with
        requests := [unpackRequest 0x00000000000000000000000000000001000000000000000104#200], resetIn := [true] }
      (presenting cfg64 [0x00000000000000000000000000000001000000000000000104#200]) = true ∧
    statusWord faulted = 0x0701#16 := by decide

/-- R44, R190: a presented request is accepted with no response; reset drops it in flight. -/
theorem test_accept_and_drop :
    stepsTo (presenting cfg64 [0x00000000000000000000000000000001000000000000000104#200])
      (flying cfg64 0x00000000000000000000000000000001000000000000000104#200) = true ∧
    stepsTo { flying cfg64 0x00000000000000000000000000000001000000000000000104#200 with resetIn := [true] }
      (State.resetWith cfg64) = true := by decide

/-- R177: an idle block holds its latch. -/
theorem test_idle : stepsTo faulted faulted = true ∧ stepsTo State.reset State.reset = true := by decide

/-- R61: V-A2's response, packed; a fault response has no words to pack (R165). -/
theorem test_pack_response : packResponse (.result 0 1) = some 0x000000000000000010000000000000000#130 ∧
    packResponse (.fault .divByZero) = none := ⟨rfl, rfl⟩

/-! ### Datapaths, from 95_test_vectors.md part 3 -/

/-- The second row of the multiplier's traces. -/
theorem test_mulPartial : mulPartial 64 0x0123456789ABCDEF 0xFEDCBA9876543210 =
    { t := 0x3FA27837E5618CF0, m1 := 0x0086A1C97530ECA7, m2 := 0x890F2A512236D88F,
      hi := 0x0121FA00AD77D742, lo := 0x2236D88FE5618CF0 } := by decide

/-- T3: two corrections of the second digit, then break. -/
theorem test_algorithmD_T3 : (algorithmD 32 0x7FFF 0 0x8000FFFF).second = { q := 0xFFFC, rhat := 0x10000, bodies := 2 } ∧
    (algorithmD 32 0x7FFF 0 0x8000FFFF).quo = 0xFFFC ∧ (algorithmD 32 0x7FFF 0 0x8000FFFF).rem = 0x4FFFC := by decide

/-- T4: one correction because q1 >= b, without a break. -/
theorem test_algorithmD_T4 :
    (algorithmD 64 0xFFFFFFFF00000000 0xFFFFFFFF 0xFFFFFFFFFFFFFFFF).first =
      { q := 0xFFFFFFFF, rhat := 0xFFFFFFFF, bodies := 1 } ∧
    (algorithmD 64 0xFFFFFFFF00000000 0xFFFFFFFF 0xFFFFFFFFFFFFFFFF).quo = 0xFFFFFFFF00000001 ∧
    (algorithmD 64 0xFFFFFFFF00000000 0xFFFFFFFF 0xFFFFFFFFFFFFFFFF).rem = 0 := by decide

/-- T6: a shift of 1 brings bit 63 of lo into un32; both digits corrected once. -/
theorem test_algorithmD_T6 :
    (algorithmD 64 0xFFFFFFFF 0x8000000000000000 0x7FFFFFFFFFFFFFFF).normal.un32 = 0x1FFFFFFFF ∧
    (algorithmD 64 0xFFFFFFFF 0x8000000000000000 0x7FFFFFFFFFFFFFFF).quo = 0x1FFFFFFFF ∧
    (algorithmD 64 0xFFFFFFFF 0x8000000000000000 0x7FFFFFFFFFFFFFFF).rem = 0x1FFFFFFFF := by decide

/-! ### Witnesses: each statement's hypotheses are met together, one conjunct per clause -/

/-- AddExactLaw, SubExactLaw: a carry of 1, at each width, with a port whose upper bits are not zero. -/
theorem witness_carry_bound : low (resolveWidth cfg32 .w32) 0xFFFFFFFF00000001#64 ≤ 1 ∧
    low (resolveWidth cfg64 .w64) 1 ≤ 1 ∧ low (resolveWidth cfg32 .native) 0xFFFFFFFF00000001#64 ≤ 1 ∧
    low (resolveWidth cfg64 .native) 0 ≤ 1 := by decide

/-- AddCarryChainAddsWordLists: P1b, 2^128 - 1 plus 1 (its last R1 is 1). -/
theorem witness_add_chain :
    [(0xFFFFFFFFFFFFFFFF#64, 1#64), (0xFFFFFFFFFFFFFFFF#64, 0#64)] ≠ [] ∧ low 64 0 ≤ 1 ∧
    chain (buildInstr .add .w64) [(0xFFFFFFFFFFFFFFFF#64, 1#64), (0xFFFFFFFFFFFFFFFF#64, 0#64)] 0 State.reset =
      some ([0, 0], 1) := by decide

/-- SubBorrowChainSubtractsWordLists: P2, 5 minus 2^64 + 3 (its last R1 is 1). -/
theorem witness_sub_chain : [(5#64, 3#64), (0#64, 1#64)] ≠ [] ∧ low 64 0 ≤ 1 ∧
    chain (buildInstr .sub .w64) [(5#64, 3#64), (0#64, 1#64)] 0 State.reset = some ([2, 0xFFFFFFFFFFFFFFFF#64], 1) := by
  decide

/-- AddDoubleEqualsAddCore, SubDoubleEqualsSubCore: either carry. -/
theorem witness_double : (0#64 = 0 ∨ 0#64 = 1) ∧ (1#64 = 0 ∨ 1#64 = 1) := by decide

/-- MulProductBounds: the largest product meets every clause; it is the only one with hi = 2^W - 2. -/
theorem witness_mul_bounds : low 32 0xFFFFFFFF#64 = 2 ^ 32 - 1 ∧ 1 ≤ low 32 0xFFFFFFFF#64 ∧
    responseOf (exec (.mul32 0xFFFFFFFF#64 0xFFFFFFFF#64 0) State.reset) = some (.result 0xFFFFFFFE#64 1) := by decide

/-- MulFaultsNeverAndReadsNoState: a faulted and an unfaulted block of one native width. -/
theorem witness_mul_states : faulted.cfg.nativeW = (State.resetWith checked).cfg.nativeW ∧ faulted.flt ≠ .none := by decide

/-- DivAnswersQuotientAndRemainder: hi just below the divisor, in each clause; at width 32 only the low halves count. -/
theorem witness_div_valid : low 32 0x0000000100000003#64 ≠ 0 ∧ low 32 0xFFFFFFFF00000002#64 < low 32 0x0000000100000003#64 ∧
    low 64 0xFFFFFFFFFFFFFFFF#64 ≠ 0 ∧ low 64 0xFFFFFFFFFFFFFFFE#64 < low 64 0xFFFFFFFFFFFFFFFF#64 ∧
    low cfg32.nativeW.bits 1 ≠ 0 ∧ low cfg32.nativeW.bits 0x100000000#64 < low cfg32.nativeW.bits 1 := by decide

/-- DivByZeroRecordsFault: an unfaulted block and a zero divisor, in each clause. -/
theorem witness_div_zero : State.reset.flt = .none ∧ low 32 0x100000000#64 = 0 ∧ low 64 0 = 0 ∧
    low cfg32.nativeW.bits 0xFFFFFFFF00000000#64 = 0 := by decide

/-- QuotientFitsExactlyWhenHiBelowDivisor: both sides of hi = x. -/
theorem witness_quotient_fits : (5#32 : BitVec Width.w32.bits) ≠ 0 ∧ (4#32).toNat < (5#32).toNat ∧
    (5#32).toNat ≤ (5#32).toNat := by decide

/-- QuotientOverflowDrawsOrFaults, QuotientOverflowFaultOnlyWhenChecked: hi = x, with and without the check, and a step that
goes on in each; the checked step reports and records QUOTIENT_OVERFLOW. -/
theorem witness_overflow : low 32 5 ≠ 0 ∧ low 32 5 ≤ low 32 5 ∧
    (State.resetWith checked).cfg.divOvfCheck = true ∧ (State.resetWith checked).flt = .none ∧
    (State.resetWith cfg64).cfg.divOvfCheck = false ∧ overflows checked (.div32 5 0 5) = true ∧
    overflows cfg64 (.div32 5 0 5) = true ∧
    stepsTo (flying checked 0x00000000000000050000000000000000000000000000000503#200)
      (recorded (State.resetWith checked) .quotientOverflow 0x03#8) = true ∧
    stepsTo (flying cfg64 0x00000000000000000000000000000001000000000000000104#200)
      (answered (State.resetWith cfg64) 2 0) = true := by decide

/-- QuotientOverflowFaultOnlyWhenChecked: an unchecked block that holds QUOTIENT_OVERFLOW in its latch and goes on. -/
theorem witness_overflow_latched :
    stepsTo { State.resetWith cfg64 with flt := .quotientOverflow } { State.resetWith cfg64 with flt := .quotientOverflow } =
      true := by decide

/-- MulThenDivRoundTrips: P3's constants. -/
theorem witness_round_trip : low 64 0xFEDCBA9876543210#64 ≠ 0 ∧
    responseOf (exec (.div64 0x0121FA00AD77D742#64 0x2236D88FE5618CF0#64 0xFEDCBA9876543210#64) State.reset) =
      some (.result 0x0123456789ABCDEF#64 0) := by decide

/-- DivDirectEqualsDivCore, AlgorithmDEqualsDivCore: valid inputs at both widths, hi one below the divisor. -/
theorem witness_valid_datapath : (0x8000FFFF#32 : BitVec Width.w32.bits) ≠ 0 ∧
    (0x8000FFFE#32).toNat < (0x8000FFFF#32).toNat ∧ (1#64 : BitVec Width.w64.bits) ≠ 0 ∧ (0#64).toNat < (1#64).toNat := by
  decide

/-- NormalizationIsExact: the largest shift, and none; a valid input in each. -/
theorem witness_normalization : 0 < 2 ^ Width.w64.bits ∧ 1 < 2 ^ Width.w64.bits ∧ (1 : Nat) ≠ 0 ∧ 0 < 1 ∧
    (divNormalize 64 0 0xFFFFFFFFFFFFFFFF 1).s = 63 ∧ 2 ^ 64 - 1 < 2 ^ Width.w64.bits ∧
    (divNormalize 64 0 10 (2 ^ 64 - 1)).s = 0 := by decide

/-- CorrectionLoopRunsAtMostTwice: T5 and T3 run two bodies, on the first and on the second digit; an overflow input; fuel 2. -/
theorem witness_two_bodies : 0x8000000000000000 < 2 ^ Width.w64.bits ∧ 0x80000000FFFFFFFF < 2 ^ Width.w64.bits ∧
    (algorithmD 64 0x8000000000000000 0 0x80000000FFFFFFFF).first.bodies = 2 ∧
    (algorithmD 32 0x7FFF 0 0x8000FFFF).second.bodies = 2 ∧
    5 < 2 ^ Width.w32.bits ∧ (5 : Nat) ≠ 0 ∧ (algorithmD 32 5 0 5).first.bodies = 1 ∧ 2 ≤ 2 := by decide

/-- DecodeEncodeAgree: a word that decodes (R74). -/
theorem witness_decodes : decode 0x00000000000000010000000000000000FFFFFFFFFFFFFFFF04#200 =
    .ok (.add64 0xFFFFFFFFFFFFFFFF#64 0 1) := by rfl

/-- OpcodeMapIsExact: the last row, and its byte. -/
theorem witness_opcode_map : (Family.div, WidthSel.native) ∈ opcodeMap ∧ decodeOpcode 0x0B#8 = .ok (.div, .native) :=
  ⟨by decide, rfl⟩

/-- ReservedOpcodeRaisesIllegalOp: the first byte of each reserved range, in flight in an unfaulted block. -/
theorem witness_reserved : (0x0C#8).extractLsb' 2 2 = 0b11#2 ∧ (0x10#8).extractLsb' 4 4 ≠ 0b0000#4 ∧
    (flying cfg64 0x10#200).inflight = some { op := 0x10#8, a := 0, b := 0, c := 0 } ∧
    resetAsserted (flying cfg64 0x10#200) = false ∧ (flying cfg64 0x10#200).flt = .none := by decide

/-- NativeOpcodeActsAsFixedWidth: a divide that changes the latch, and one that leaves it. -/
theorem witness_native_latch :
    exec (.div 0 0 0) (State.resetWith cfg32) = .next (recorded (State.resetWith cfg32) .divByZero 0x0B#8) ∧
    exec (.div 0 1 1) (State.resetWith cfg32) = .next (answered (State.resetWith cfg32) 1 0) := ⟨rfl, rfl⟩

/-- ThirtyTwoBitFormsIgnoreUpperBits: WSEL 00, and the native width at 32; operands that differ in the upper half only, and a
divide of them that is answered with result words (V-D8 and V-D1). -/
theorem witness_upper_bits : resolveWidth cfg64 .w32 = 32 ∧ resolveWidth cfg32 .native = 32 ∧
    low 32 0x100000000#64 = low 32 0 ∧ low 32 0xA#64 = low 32 0xFFFFFFFF0000000A#64 ∧ low 32 0x100000003#64 = low 32 3 ∧
    responseOf (exec (.div32 0x100000000#64 0xA 0x100000003#64) State.reset) = some (.result 3 1) := by decide

/-- AssemblerWritesOneRequest: a family that is not MUL, and a line of each kind that assembles. -/
theorem witness_assembler : Family.div ≠ .mul ∧ assemble .sub .native [10, 3, 1] = some (.sub 10 3 1) ∧
    assemble .mul .w32 [6, 7] = some (.mul32 6 7 0) ∧ assembleLine "SUB" [10, 3, 1] = some (.sub 10 3 1) := by decide

/-- AssemblerReadsEveryWrittenForm: the largest literal; a bound name, a decimal and a `0x` operand, each one word with a value; two
result names that differ and are no literals; a comment; a family of each kind. -/
theorem witness_written_forms : 2 ^ 64 - 1 < 2 ^ 64 ∧
    isWordText "K1".toList = true ∧ literalValue "K1".toList = none ∧ [("K1".toList, 5#64)].lookup "K1".toList = some 5 ∧
    operandValue [("K1".toList, 5)] "K1".toList = some 5 ∧
    isWordText "18446744073709551615".toList = true ∧
    operandValue [] "18446744073709551615".toList = some 0xFFFFFFFFFFFFFFFF#64 ∧
    isWordText "0x00fF".toList = true ∧ operandValue [] "0x00fF".toList = some 0xFF ∧
    isWordText "Z0".toList = true ∧ literalValue "Z0".toList = none ∧ "Z0".toList ≠ "K1".toList ∧
    (" ; text".toList = ' ' :: ';' :: " text".toList) ∧ Family.sub ≠ .mul ∧
    (assembleText [] "ADD64 0xFFFFFFFFFFFFFFFF, 1, 0 -> Z0, K1".toList).map AssembledLine.results =
      some (some ("Z0".toList, "K1".toList)) := by decide

/-- StepRunsDecodedInstruction, AcceptedRequestIsAnswered, FaultPriority: a request in flight that decodes, in an unfaulted
block, reset released. -/
theorem witness_request_in_flight :
    (flying cfg64 0x07#200).inflight = some { op := 0x07#8, a := 0, b := 0, c := 0 } ∧
    resetAsserted (flying cfg64 0x07#200) = false ∧ (flying cfg64 0x07#200).flt = .none ∧
    decodeRequest { op := 0x07#8, a := 0, b := 0, c := 0 } = .ok (.div64 0 0 0) :=
  ⟨rfl, rfl, rfl, rfl⟩

/-- FaultPriority: a request of each class (V-F6, V-F2, V-F12, V-D9), and the code that its response carries. -/
theorem witness_fault_priority :
    (answer (flying checked 0x00000000000000030000000000000002000000000000000114#200)).map faultField = some 2 ∧
    (answer (flying checked 0x00000000000000000000000000000000000000000000000007#200)).map faultField = some 1 ∧
    (answer (flying checked 0x00000000000000030000000000000000000000000000000307#200)).map faultField = some 3 ∧
    (answer (flying checked 0x0000000000000003000000000000000A000000000000000007#200)).map faultField = some 0 := by
  decide

/-- StepAcceptsPresentedRequest, TransactionTakesTwoSteps: a request presented to an idle unfaulted block, released for two
steps (also with the levels written out, and asserted only after); one that decodes and one that does not. -/
theorem witness_presented : (presenting cfg64 [0x04#200, 0x14#200]).inflight = none ∧
    (presenting cfg64 [0x04#200, 0x14#200]).requests =
      [{ op := 0x04#8, a := 0, b := 0, c := 0 }, { op := 0x14#8, a := 0, b := 0, c := 0 }] ∧
    resetAsserted (presenting cfg64 [0x04#200]) = false ∧ (presenting cfg64 [0x04#200]).flt = .none ∧
    (State.reset.resetIn.take 2 ⊆ [false]) ∧ ([false, false, true].take 2 ⊆ [false]) ∧
    (decodeRequest { op := 0x04#8, a := 0, b := 0, c := 0 }).toOption = some (.add64 0 0 0) ∧
    (decodeRequest { op := 0x14#8, a := 0, b := 0, c := 0 }).toOption = none := by decide

/-- IdleBlockHoldsItsLatch: an idle block, faulted and not. -/
theorem witness_idle : faulted.inflight = none ∧ faulted.requests = [] ∧ resetAsserted faulted = false ∧
    State.reset.inflight = none ∧ State.reset.requests = [] ∧ resetAsserted State.reset = false := by decide

/-- FaultedBlockAcceptsNothing: a faulted block with a request at its ports, one with a request in flight (no run reaches it),
and one that goes on because reset is asserted. -/
theorem witness_faulted : faulted.flt ≠ .none ∧ resetAsserted faulted = false ∧
    ({ faulted with requests := [unpackRequest 0x04#200] } : State).requests ≠ [] ∧
    stuck { faulted with requests := [unpackRequest 0x04#200] } = true ∧
    stuck { faulted with inflight := some (unpackRequest 0x04#200) } = true ∧
    stepsTo { faulted with resetIn := [true] } State.reset = true := by decide

/-- NothingIsAcceptedWhileARequestIsInFlight: a step that answers and a step that drops, each with a second request waiting. -/
theorem witness_in_flight :
    stepsTo { flying cfg64 0x04#200 with requests := [unpackRequest 0x05#200] }
      { answered (State.resetWith cfg64) 0 0 with requests := [unpackRequest 0x05#200] } = true ∧
    stepsTo { flying cfg64 0x04#200 with requests := [unpackRequest 0x05#200], resetIn := [true] }
      { State.resetWith cfg64 with requests := [unpackRequest 0x05#200] } = true := by decide

/-- ResponseIsPure, ReplayGivesTheSameResponse: two blocks that differ in what they did before; a request whose quotient does
not overflow, and a divide among them. -/
theorem witness_pure : (answered (flying cfg64 0x04#200) 1 1) ≠ State.resetWith cfg64 ∧
    (answered (flying cfg64 0x04#200) 1 1).cfg = (State.resetWith cfg64).cfg ∧
    (answered (flying cfg64 0x04#200) 1 1).draws = (State.resetWith cfg64).draws ∧
    overflows cfg64 (.div64 2 0 3) = false ∧ overflows cfg64 (.add32 1 2 9) = false := by decide

/-- ResponsesComeInOrder, first clause: a divide by zero is the second of three requests, and the third gets no response. -/
theorem witness_in_order_fault :
    responsesOver 9 (presenting cfg64 [0x04#200, 0x07#200, 0x04#200]) = [.result 0 0, .fault .divByZero] ∧
    answersInOrder (presenting cfg64 [0x04#200, 0x07#200, 0x04#200]).requests
      (presenting cfg64 [0x04#200, 0x07#200, 0x04#200]) = [.result 0 0, .fault .divByZero] := by decide

/-- ResponsesComeInOrder, second clause: a carry outside {0, 1} (V-A10), which no obligation of the host allows. -/
theorem witness_in_order_wide_carry : decodeRequest (unpackRequest 0x00000000000000020000000000000000000000000000000000#200) =
      .ok (.add32 0 0 2) ∧ (Instr.add32 0 0 2).family ≠ .div ∧ meetsObligations cfg64 (.add32 0 0 2) = false ∧
    responsesOver 2 (presenting cfg64 [0x00000000000000020000000000000000000000000000000000#200]) = [.result 2 0] :=
  ⟨rfl, by decide, by decide, by decide⟩

/-- ResponsesComeInOrder: two requests that keep the host's obligations, and the two responses (P1b). -/
theorem witness_in_order :
    (∀ level ∈ [false, false], level = false) ∧
    decodeRequest (unpackRequest 0x00000000000000000000000000000001FFFFFFFFFFFFFFFF04#200) =
      .ok (.add64 0xFFFFFFFFFFFFFFFF#64 1 0) ∧
    meetsObligations cfg64 (.add64 0xFFFFFFFFFFFFFFFF#64 1 0) = true ∧
    decodeRequest (unpackRequest 0x00000000000000010000000000000000FFFFFFFFFFFFFFFF04#200) =
      .ok (.add64 0xFFFFFFFFFFFFFFFF#64 0 1) ∧
    meetsObligations cfg64 (.add64 0xFFFFFFFFFFFFFFFF#64 0 1) = true ∧
    responsesOver 4 (presenting cfg64 [0x00000000000000000000000000000001FFFFFFFFFFFFFFFF04#200,
      0x00000000000000010000000000000000FFFFFFFFFFFFFFFF04#200]) = [.result 0 1, .result 0 1] :=
  ⟨by decide, rfl, by decide, rfl, by decide, by decide⟩

/-- InstancesAreIndependent: one of two instances steps. -/
theorem witness_instances : (0 : Nat) ≠ 1 ∧ [faulted, flying cfg64 0x04#200][1]? = some (flying cfg64 0x04#200) ∧
    stepsTo (flying cfg64 0x04#200) (answered (State.resetWith cfg64) 0 0) = true ∧
    systemStep 1 [faulted, flying cfg64 0x04#200] = some [faulted, answered (State.resetWith cfg64) 0 0] := by decide

/-- InstancesAreIndependent, the last clause: instance 1 accepts a request, instance 0 faults, instance 1 answers. -/
theorem witness_interleaving :
    [1, 0, 1].foldlM (fun now k => systemStep k now) [flying cfg64 0x07#200, presenting cfg32 [0x04#200]] =
      some [recorded (State.resetWith cfg64) .divByZero 0x07#8, answered (State.resetWith cfg32) 0 0] ∧
    [flying cfg64 0x07#200, presenting cfg32 [0x04#200]][1]? = some (presenting cfg32 [0x04#200]) ∧
    [1, 0, 1].count 1 = 2 := by decide

/-- LatchIsWrittenByFaultsAndResetOnly, EveryStepKeepsTheInvariant, ConfigurationNeverChanges: steps that go on by reset, with
the latch held, with result words, and with a recorded fault. -/
theorem witness_latch : stepsTo { faulted with resetIn := [true] } State.reset = true ∧
    stepsTo faulted faulted = true ∧
    stepsTo (flying cfg64 0x04#200) (answered (State.resetWith cfg64) 0 0) = true ∧
    stepsTo (flying cfg64 0x07#200) (recorded (State.resetWith cfg64) .divByZero 0x07#8) = true := by decide

/-- EveryStepKeepsTheInvariant, StatusWordFields: states of the invariant with a request in flight, and after a fault. -/
theorem witness_inv : Inv (flying cfg64 0x07#200) ∧ Inv (recorded (State.resetWith cfg64) .divByZero 0x07#8) ∧
    (flying cfg64 0x07#200).flt = .none := by
  refine ⟨⟨?_, ?_, ?_, ?_, ?_⟩, ⟨?_, ?_, ?_, ?_, ?_⟩, rfl⟩ <;> simp [flying, State.resetWith, recorded]

/-- StatusWordFields, AddSubMulNeverFault, DivFrame, FaultRecordingDoesNothingElse: a divide that delivers words, and one that
reports a fault, in an unfaulted and in a faulted block. -/
theorem witness_div_outcomes : (Instr.add32 1 2 3).family ≠ .div ∧
    exec (.div64 0 10 3) State.reset = .next (answered State.reset 3 1) ∧
    exec (.div64 0 0 0) State.reset = .next (recorded State.reset .divByZero 0x07#8) ∧
    exec (.div64 0 0 0) faulted = .next { faulted with response := some (.fault .divByZero) } ∧
    overflows cfg64 (buildInstr .div .w64 0 10 3) = false ∧ checked.divOvfCheck = true :=
  ⟨by decide, rfl, rfl, rfl, by decide, rfl⟩

/-- KeptObligationsGiveResultWords: a request of each family, at the edge of its obligation. -/
theorem witness_kept : meetsObligations cfg64 (.add32 0 0 1) = true ∧ meetsObligations cfg64 (.sub 0 0 1) = true ∧
    meetsObligations cfg64 (.mul64 0 0 9) = true ∧ meetsObligations cfg64 (.div64 2 0 3) = true ∧
    meetsObligations cfg64 (.div64 3 0 3) = false := by decide

/-- ResetInputClearsLatchAndDropsRequest, ReleasedResetAcceptsNextRequest: a faulted block with a request in flight, reset for
one step; after it nothing, or a request, waits; and the one step that leaves the faulted state. -/
theorem witness_reset : resetAsserted { faulted with inflight := some (unpackRequest 0x04#200), resetIn := [true] } = true ∧
    stepsTo { faulted with inflight := some (unpackRequest 0x04#200), resetIn := [true] } State.reset = true ∧
    resetAsserted State.reset = false ∧ State.reset.requests = [] ∧
    stepsTo { faulted with requests := [unpackRequest 0x04#200], resetIn := [true] } (presenting cfg64 [0x04#200]) = true ∧
    (presenting cfg64 [0x04#200]).requests = [unpackRequest 0x04#200] ∧
    faulted.flt ≠ .none ∧ State.reset.flt = .none := by decide

end Sys2Proof.Tests
end

section
/-!
PROOFS. The fault latch and the STATUS port (spec/10_state.md R25, R26): what one instruction and one step can do to the latch,
where the latch stands in STATUS, and the two statements that follow.
-/

namespace Sys2Proof.Machine

open Sys2Proof.Safety

/-! ### What may write the latch -/

/-- An instruction that goes on delivers words and leaves the latch, or raises a fault under its own opcode byte. -/
theorem exec_latch {i : Instr} {s t : State} (h : exec i s = .next t) :
    (∃ r0 r1, t.response = some (.result r0 r1) ∧ t.flt = s.flt ∧ t.fop = s.fop) ∨
    ∃ f, f ≠ .none ∧ t = raise f (opcodeByte i.family i.widthSel) s := by
  obtain ⟨t', ht', -, -, -, -, hlatch, -⟩ := exec_outcome i s
  obtain rfl : t' = t := by simpa [ht'] using h
  obtain hwords | ⟨f, hraise, -, hf⟩ := hlatch
  · exact .inl hwords
  · refine .inr ⟨f, ?_, hraise⟩
    rintro rfl
    simp at hf

/-- An instruction answered with result words leaves the latch. -/
theorem exec_result_latch {i : Instr} {s t : State} {r0 r1 : Word} (h : exec i s = .next t)
    (hres : t.response = some (.result r0 r1)) : t.flt = s.flt ∧ t.fop = s.fop := by
  obtain ⟨_, _, -, hkept⟩ | ⟨f, -, rfl⟩ := exec_latch h
  · exact hkept
  · simp at hres

/-- A step without reset leaves the latch, or finds it empty and records the fault of the request in flight. -/
theorem step_latch {s t : State} (h : step s = .next t) (hr : resetAsserted s = false) :
    (t.flt = s.flt ∧ t.fop = s.fop) ∨
    (s.flt = .none ∧ ∃ r f, s.inflight = some r ∧ f ≠ .none ∧ t = recorded (beginStep s) f r.op) := by
  obtain ⟨hr', -⟩ | ⟨-, -, -, rfl⟩ | ⟨-, -, -, r, rest, -, rfl⟩ | ⟨-, hflt, r, hreq, hans⟩ := step_outcome h
  · simp [hr'] at hr
  · exact .inl ⟨rfl, rfl⟩
  · exact .inl ⟨rfl, rfl⟩
  · have hflt' : (beginStep s).flt = .none := hflt
    obtain ⟨i, hdec, hexec⟩ | ⟨_, -, rfl⟩ := hans
    · obtain ⟨_, _, -, hkept⟩ | ⟨f, hf, rfl⟩ := exec_latch hexec
      · exact .inl hkept
      · rw [← (decodeRequest_ok hdec).1, raise_unfaulted hflt']
        exact .inr ⟨hflt, r, f, hreq, hf, rfl⟩
    · rw [raise_unfaulted hflt']
      exact .inr ⟨hflt, r, .illegalOp, hreq, by decide, rfl⟩

/-- Settles O48: the reset step clears the latch, and every other step is one of the two cases of `step_latch`. -/
theorem latchIsWrittenByFaultsAndResetOnly : Obligations.LatchIsWrittenByFaultsAndResetOnly := by
  intro s t h
  refine ⟨fun hr => ?_, fun hr => ?_⟩
  · obtain rfl : applyReset s = t := by simpa [step_reset hr] using h
    exact ⟨rfl, rfl⟩
  · obtain ⟨hflt, hfop⟩ | ⟨hnone, r, f, hreq, hf, rfl⟩ := step_latch h hr
    · exact ⟨fun _ => ⟨hflt, hfop⟩, fun _ _ _ => ⟨hflt, hfop⟩, by simp [hflt, hfop]⟩
    · exact ⟨fun hfaulted => absurd hnone hfaulted, by simp, fun _ => ⟨hnone, hf, rfl, r, hreq, rfl⟩⟩

/-! ### The STATUS port -/

/-- 10_state.md R26, bits 1:0. -/
@[simp] theorem statusWord_flt (s : State) : (statusWord s).extractLsb' 0 2 = s.flt.code :=
  BitVec.extractLsb'_append_eq_right (a := s.fop ++ 0#6)

/-- 10_state.md R26, bits 7:2. -/
@[simp] theorem statusWord_zeros (s : State) : (statusWord s).extractLsb' 2 6 = 0 :=
  (BitVec.extractLsb'_append_eq_of_le (xhi := s.fop ++ 0#6) (xlo := s.flt.code) (by decide)).trans
    BitVec.extractLsb'_append_eq_right

/-- 10_state.md R26, bits 15:8. -/
@[simp] theorem statusWord_fop (s : State) : (statusWord s).extractLsb' 8 8 = s.fop :=
  (BitVec.extractLsb'_append_eq_of_le (xhi := s.fop ++ 0#6) (xlo := s.flt.code) (by decide)).trans
    BitVec.extractLsb'_append_eq_left

/-- STATUS reads the latch and nothing else. -/
theorem statusWord_congr {s t : State} (hflt : t.flt = s.flt) (hfop : t.fop = s.fop) :
    statusWord t = statusWord s := by
  simp only [statusWord, hflt, hfop]

/-- An unfaulted block of the invariant reads STATUS as at reset. -/
theorem statusWord_unfaulted {s : State} (hinv : Inv s) (hflt : s.flt = .none) : statusWord s = 0x0000#16 :=
  statusWord_congr (s := State.reset) hflt (hinv.fop_zero hflt)

/-- Settles O50: the three fields of `statusWord`, and that it reads the latch only. -/
theorem statusWordFields : Obligations.StatusWordFields := fun s =>
  ⟨statusWord_flt s, statusWord_zeros s, statusWord_fop s, statusWord_unfaulted, fun _ => statusWord_congr rfl rfl,
    fun _ _ _ _ h hres =>
      have ⟨hflt, hfop⟩ := exec_result_latch h hres
      statusWord_congr hflt hfop⟩

end Sys2Proof.Machine
end

section
/-!
PROOFS. Operation width and the ports (spec/20_memory.md R42): an operation of width W reads bits [W-1:0] of its ports only, and
its result words are below 2^W; the statement about 32 bits follows.
-/

namespace Sys2Proof.Machine

open Sys2Proof.Safety

/-! ### What is read -/

/-- Ports that agree in bits [W-1:0] give the same operand at width W (30_encoding.md R66). -/
theorem operand_congr {w : Nat} {p q : Word} (h : low w p = low w q) : operand w p = operand w q :=
  BitVec.eq_of_toNat_eq (by simpa using h)

/-- An instruction depends on its ports through their operands at its width only (30_encoding.md R66). -/
theorem exec_congr_low (fam : Family) (wsel : WidthSel) {a b c a' b' c' : Word} (s : State)
    (ha : low (resolveWidth s.cfg wsel) a = low (resolveWidth s.cfg wsel) a')
    (hb : low (resolveWidth s.cfg wsel) b = low (resolveWidth s.cfg wsel) b')
    (hc : low (resolveWidth s.cfg wsel) c = low (resolveWidth s.cfg wsel) c') :
    exec (buildInstr fam wsel a b c) s = exec (buildInstr fam wsel a' b' c') s := by
  cases fam
  · simp only [exec_add, addAt, operand_congr ha, operand_congr hb, operand_congr hc]
  · simp only [exec_sub, subAt, operand_congr ha, operand_congr hb, operand_congr hc]
  · simp only [exec_mul, mulAt, operand_congr ha, operand_congr hb]
  · simp only [exec_div, divAt, operand_congr ha, operand_congr hb, operand_congr hc]

/-! ### What is driven -/

/-- The outcome goes on, and where it is answered with result words, both are below 2^W (30_encoding.md R68). -/
def AnswersBelow (w : Nat) (o : Host.Outcome State Fault Refusal) : Prop :=
  ∃ t, o = .next t ∧ ∀ r0 r1, t.response = some (.result r0 r1) → r0.toNat < 2 ^ w ∧ r1.toNat < 2 ^ w

theorem zext64_lt {w : Nat} (r : BitVec w) : (zext64 r).toNat < 2 ^ w := by
  rw [zext64, BitVec.toNat_setWidth]
  exact (Nat.mod_le _ _).trans_lt r.isLt

/-- Words that leave a W-bit operation by `zext64` are below 2^W. -/
theorem answersBelow_zext64 {w : Nat} {r q : BitVec w} {t : State}
    (h : t.response = some (.result (zext64 r) (zext64 q))) : AnswersBelow w (.next t) := by
  refine ⟨t, rfl, fun r0 r1 hres => ?_⟩
  obtain ⟨rfl, rfl⟩ : zext64 r = r0 ∧ zext64 q = r1 := by simpa [h] using hres
  exact ⟨zext64_lt r, zext64_lt q⟩

theorem deliverPair_answersBelow {w : Nat} (r : BitVec w × BitVec w) (s : State) : AnswersBelow w (deliverPair r s) :=
  answersBelow_zext64 (deliver_response _ _ s)

/-- A recorded fault delivers no words (60_exceptions.md R165). -/
theorem raise_answersBelow (w : Nat) (f : FaultCode) (op : Byte) (s : State) : AnswersBelow w (.next (raise f op s)) :=
  ⟨_, rfl, by simp⟩

/-- With the check an overflow delivers no words, without it two W-bit free values (42_div.md R137). -/
theorem quotientOverflow_answersBelow (w : Nat) (op : Byte) (s : State) : AnswersBelow w (quotientOverflow w op s) := by
  unfold quotientOverflow
  split
  · exact raise_answersBelow w _ op s
  · exact answersBelow_zext64 (deliverDraws_response w s)

theorem divAt_answersBelow (w : Nat) (op : Byte) (hi lo x : Word) (s : State) :
    AnswersBelow w (divAt w op hi lo x s) := by
  unfold divAt
  split
  · exact raise_answersBelow w _ op s
  · exact quotientOverflow_answersBelow w op s
  · exact deliverPair_answersBelow _ s

/-- Every instruction goes on, and its result words have its width. -/
theorem exec_answersBelow (fam : Family) (wsel : WidthSel) (a b c : Word) (s : State) :
    AnswersBelow (resolveWidth s.cfg wsel) (exec (buildInstr fam wsel a b c) s) := by
  cases fam
  · exact exec_add wsel a b c s ▸ deliverPair_answersBelow _ s
  · exact exec_sub wsel a b c s ▸ deliverPair_answersBelow _ s
  · exact exec_mul wsel a b c s ▸ deliverPair_answersBelow _ s
  · exact exec_div wsel a b c s ▸ divAt_answersBelow _ _ a b c s

/-- Settles O32: `exec_congr_low` and `exec_answersBelow` at width 32. -/
theorem thirtyTwoBitFormsIgnoreUpperBits : Obligations.ThirtyTwoBitFormsIgnoreUpperBits := by
  intro fam wsel a b c a' b' c' s hw ha hb hc
  rw [← hw] at ha hb hc
  exact ⟨exec_congr_low fam wsel s ha hb hc, hw ▸ exec_answersBelow fam wsel a b c s⟩

end Sys2Proof.Machine
end

section
/-!
PROOFS. The native-width opcodes (spec/30_encoding.md R65): two opcodes of one family that resolve to the same width agree in
everything but the byte that a fault records; the statement about NATIVE_W follows.
-/

namespace Sys2Proof.Machine

open Sys2Proof.Safety

/-- From `s` both outcomes go on, to states that differ in FOP at most; there the first holds `op`, and only where it wrote the
latch. -/
def AgreeButFop (op : Byte) (s : State) (o o' : Host.Outcome State Fault Refusal) : Prop :=
  ∃ t u, o = .next t ∧ o' = .next u ∧ t = { u with fop := t.fop } ∧
    (t.flt = s.flt → t.fop = u.fop) ∧ (t.flt ≠ s.flt → t.fop = op)

/-- The same outcome twice, where the latch is left. -/
theorem agreeButFop_next {s t : State} (op : Byte) (h : t.flt = s.flt) : AgreeButFop op s (.next t) (.next t) :=
  ⟨t, t, rfl, rfl, rfl, fun _ => rfl, fun hne => absurd h hne⟩

/-- The same fault under two opcode bytes (60_exceptions.md R165). -/
theorem agreeButFop_raise {f : FaultCode} (hf : f ≠ .none) (op op' : Byte) (s : State) :
    AgreeButFop op s (.next (raise f op s)) (.next (raise f op' s)) := by
  refine ⟨_, _, rfl, rfl, rfl, ?_⟩
  by_cases hs : s.flt = .none
  · simp [hs, hf]
  · simp [hs]

/-- A quotient overflow of two opcode bytes, with the check and without (42_div.md R137). -/
theorem agreeButFop_quotientOverflow (w : Nat) (op op' : Byte) (s : State) :
    AgreeButFop op s (quotientOverflow w op s) (quotientOverflow w op' s) := by
  unfold quotientOverflow
  split
  · exact agreeButFop_raise (by decide) op op' s
  · exact agreeButFop_next op (deliverDraws_flt w s)

/-- One divide under two opcode bytes, in each input class of 42_div.md R130. -/
theorem agreeButFop_divAt (w : Nat) (op op' : Byte) (hi lo x : Word) (s : State) :
    AgreeButFop op s (divAt w op hi lo x s) (divAt w op' hi lo x s) := by
  unfold divAt
  cases divCore (operand w hi) (operand w lo) (operand w x) with
  | divByZero => exact agreeButFop_raise (by decide) op op' s
  | overflow => exact agreeButFop_quotientOverflow w op op' s
  | result quo rem => exact agreeButFop_next op (deliver_flt _ _ s)

/-- At the same width an ADD, SUB or MUL is the same operation, whatever its width select. -/
theorem exec_congr_width {fam : Family} (hfam : fam ≠ .div) {wsel wsel' : WidthSel} (a b c : Word) {s : State}
    (hw : resolveWidth s.cfg wsel = resolveWidth s.cfg wsel') :
    exec (buildInstr fam wsel a b c) s = exec (buildInstr fam wsel' a b c) s := by
  cases fam with
  | add => simp only [exec_add, hw]
  | sub => simp only [exec_sub, hw]
  | mul => simp only [exec_mul, hw]
  | div => exact absurd rfl hfam

/-- Two width selects that resolve to the same width make one operation of a family, but for the byte that a fault records. -/
theorem exec_agreeButFop (fam : Family) {wsel wsel' : WidthSel} (a b c : Word) {s : State}
    (hw : resolveWidth s.cfg wsel = resolveWidth s.cfg wsel') :
    AgreeButFop (opcodeByte fam wsel) s (exec (buildInstr fam wsel a b c) s) (exec (buildInstr fam wsel' a b c) s) := by
  by_cases hfam : fam = .div
  · subst hfam
    simp only [exec_div, hw]
    exact agreeButFop_divAt _ _ _ a b c s
  · obtain ⟨t, ht, -, -, -, -, -, -, hframe⟩ := exec_outcome (buildInstr fam wsel a b c) s
    obtain ⟨r0, r1, rfl⟩ := hframe (by simpa using hfam)
    rw [← exec_congr_width hfam a b c hw, ht]
    exact agreeButFop_next _ rfl

/-- Settles O31: `exec_agreeButFop` at the fixed-width select whose width is NATIVE_W. -/
theorem nativeOpcodeActsAsFixedWidth : Obligations.NativeOpcodeActsAsFixedWidth := by
  refine ⟨fun _ => ⟨rfl, rfl, rfl⟩, fun fam a b c s => ?_⟩
  cases hn : s.cfg.nativeW with
  | w32 => exact exec_agreeButFop fam (wsel' := .w32) a b c (congrArg Width.bits hn)
  | w64 => exact exec_agreeButFop fam (wsel' := .w64) a b c (congrArg Width.bits hn)

end Sys2Proof.Machine
end

section
/-!
PROOFS. The opcode map, requests written out, and the assembler (spec/30_encoding.md R64, R72 to R74): the map holds every
operation, a name finds its own row, and what an assembled operation looks like.
-/

namespace Sys2Proof

open Sys2Proof.Machine Sys2Proof.Safety

/-! ### The opcode map -/

/-- The opcode map leaves no operation out. -/
theorem mem_opcodeMap (o : Family × WidthSel) : o ∈ opcodeMap := by
  obtain ⟨fam, wsel⟩ := o
  cases fam <;> cases wsel <;> decide

/-- Settles O28: the rows by evaluation, the rest by the round trip of an opcode byte in both directions. -/
theorem opcodeMapIsExact : Obligations.OpcodeMapIsExact :=
  ⟨fun _ => rfl, fun o _ => decodeOpcode_opcodeByte o.1 o.2,
    fun _ o h => ⟨mem_opcodeMap o, opcodeByte_of_decodeOpcode h⟩⟩

/-- Settles O30: fixed words, each conjunct by evaluating the model on them. -/
theorem writtenRequestsDecode : Obligations.WrittenRequestsDecode :=
  ⟨rfl, rfl, rfl, rfl, rfl, rfl, rfl, rfl⟩

/-! ### The assembler -/

/-- A mnemonic finds its own row: no two rows share one (30_encoding.md R73). -/
theorem find?_mnemonic (fam : Family) (wsel : WidthSel) :
    opcodeMap.find? (fun o => mnemonic o.1 o.2 == mnemonic fam wsel) = some (fam, wsel) := by
  cases fam <;> cases wsel <;> decide

theorem assembleLine_mnemonic (fam : Family) (wsel : WidthSel) (operands : List Word) :
    assembleLine (mnemonic fam wsel) operands = assemble fam wsel operands := by
  simp only [assembleLine, find?_mnemonic]

/-- A name that assembles is the mnemonic of some row. -/
theorem mnemonic_of_assembleLine {name : String} {operands : List Word} {i : Instr}
    (h : assembleLine name operands = some i) : ∃ fam wsel, name = mnemonic fam wsel := by
  unfold assembleLine at h
  split at h
  · next fam wsel hrow =>
    have hname := List.find?_some hrow
    exact ⟨fam, wsel, (eq_of_beq hname).symm⟩
  · cases h

theorem assemble_of_ne_mul {fam : Family} (hfam : fam ≠ .mul) (wsel : WidthSel) (a b c : Word) :
    assemble fam wsel [a, b, c] = some (buildInstr fam wsel a b c) := by
  cases fam with
  | mul => exact absurd rfl hfam
  | add | sub | div => rfl

/-- What assembles: a MUL of two operands, whose C is 0, or another operation of three (30_encoding.md R72). -/
theorem assemble_cases {fam : Family} {wsel : WidthSel} {operands : List Word} {i : Instr}
    (h : assemble fam wsel operands = some i) :
    (fam = .mul ∧ ∃ a b, operands = [a, b] ∧ i = buildInstr fam wsel a b 0) ∨
    (fam ≠ .mul ∧ ∃ a b c, operands = [a, b, c] ∧ i = buildInstr fam wsel a b c) := by
  unfold assemble at h
  split at h
  · next a b => exact .inl ⟨rfl, a, b, rfl, (Option.some.inj h).symm⟩
  · cases h
  · next a b c hfam => exact .inr ⟨hfam, a, b, c, rfl, (Option.some.inj h).symm⟩
  · cases h

/-- The assembler's form asks for C = 0 on a MUL and for nothing else (30_encoding.md R72). -/
theorem buildInstr_wellFormed_iff (fam : Family) (wsel : WidthSel) (a b c : Word) :
    (buildInstr fam wsel a b c).wellFormed = true ↔ (fam = .mul → c = 0) := by
  cases fam <;> cases wsel <;> simp [buildInstr, Instr.wellFormed]

@[simp] theorem encodeRequest_buildInstr_op (fam : Family) (wsel : WidthSel) (a b c : Word) :
    (encodeRequest (buildInstr fam wsel a b c)).op = opcodeByte fam wsel := by
  simp [encodeRequest]

/-- Settles O34: a mnemonic finds its own row, and `assemble_cases` says what a row's operands give. -/
theorem assemblerWritesOneRequest : Obligations.AssemblerWritesOneRequest := by
  refine ⟨assembleLine_mnemonic, fun _ _ _ => mnemonic_of_assembleLine, fun _ wsel a b c hfam =>
    assemble_of_ne_mul hfam wsel a b c, fun _ _ _ => rfl, fun fam wsel operands i h => ?_⟩
  obtain ⟨rfl, a, b, rfl, rfl⟩ | ⟨hfam, a, b, c, rfl, rfl⟩ := assemble_cases h
  · exact ⟨(buildInstr_wellFormed_iff ..).mpr fun _ => rfl, encodeRequest_buildInstr_op .., rfl⟩
  · exact ⟨(buildInstr_wellFormed_iff ..).mpr fun hmul => absurd hmul hfam, encodeRequest_buildInstr_op ..,
      (if_neg hfam).symm⟩

end Sys2Proof
end

section
/-!
PROOFS. One ADD or SUB (spec/40_addsub.md R80, R81, R86, R90, R91, R96): the sum of the core with a carry of 0 or 1 is the
library's carry recurrence at the top bit, and a subtract is the add of the complement with the carry complemented.
-/

namespace Sys2Proof.Machine

open Sys2Proof.Safety

/-! ### Every carry and borrow -/

/-- Settles O1: the answer of `addAt` at each width. -/
theorem addAnswersSumAndCarryOut : Obligations.AddAnswersSumAndCarryOut := fun x y carry s =>
  ⟨addAt_eq 32 x y carry s, addAt_eq 64 x y carry s, addAt_eq s.cfg.nativeW.bits x y carry s⟩

/-- Settles O6: the answer of `subAt` at each width. -/
theorem subAnswersDifferenceAndBorrowOut : Obligations.SubAnswersDifferenceAndBorrowOut := fun x y borrow s =>
  ⟨subAt_eq 32 x y borrow s, subAt_eq 64 x y borrow s, subAt_eq s.cfg.nativeW.bits x y borrow s⟩

/-- Delivering a pair of W-bit results answers with the words they leave in (30_encoding.md R68). -/
theorem deliverPair_eq_zext64 {w : Nat} (r : BitVec w × BitVec w) (s : State) :
    deliverPair r s = .next (answered s (zext64 r.1).toNat (zext64 r.2).toNat) := by
  rw [deliverPair, deliver_eq_answered]

/-- A one-bit result leaves as 0 or 1. -/
theorem zext64_eq_zero_or_one {w : Nat} {r : BitVec w} {b : Bool} (h : r.toNat = b.toNat) :
    zext64 r = 0 ∨ zext64 r = 1 := by
  cases b
  · exact .inl (BitVec.eq_of_toNat_eq (by simp [zext64, h]))
  · exact .inr (BitVec.eq_of_toNat_eq (by simp [zext64, h]))

/-- Settles O3: `carryOut` is one bit whatever the carry-in. -/
theorem addCarryOutIsOneBit : Obligations.AddCarryOutIsOneBit := fun wsel x y carry s =>
  ⟨_, _, (exec_add wsel x y carry s).trans (deliverPair_eq_zext64 _ s),
    zext64_eq_zero_or_one (carryOut_toNat (resolveWidth_pos s.cfg wsel) _ _ _)⟩

/-- Settles O8: `borrowOut` is one bit whatever the borrow-in. -/
theorem subBorrowOutIsOneBit : Obligations.SubBorrowOutIsOneBit := fun wsel x y borrow s =>
  ⟨_, _, (exec_sub wsel x y borrow s).trans (deliverPair_eq_zext64 _ s),
    zext64_eq_zero_or_one (borrowOut_toNat (resolveWidth_pos s.cfg wsel) _ _ _)⟩

/-! ### A carry of 0 or 1 -/

/-- A carry operand of 0 or 1, as the word of a bit. -/
theorem exists_bit_of_toNat_le_one {w : Nat} (hw : 0 < w) {c : BitVec w} (h : c.toNat ≤ 1) :
    ∃ b : Bool, c = (BitVec.ofBool b).setWidth w ∧ c.toNat = b.toNat := by
  have h1 : 1 < 2 ^ w := Nat.one_lt_two_pow hw.ne'
  refine ⟨decide (c.toNat = 1), BitVec.eq_of_toNat_eq ?_, ?_⟩ <;>
    rcases Nat.le_one_iff_eq_zero_or_eq_one.mp h with h | h <;> simp [h, Nat.mod_eq_of_lt h1]

/-- The top bit of the sum is that of the operands and the carry into it (40_addsub.md R81). -/
theorem addCore_fst_msb {w : Nat} (hw : 0 < w) (x y : BitVec w) (b : Bool) :
    (addCore x y ((BitVec.ofBool b).setWidth w)).1.msb = (x.msb ^^ (y.msb ^^ BitVec.carry (w - 1) x y b)) := by
  simp only [BitVec.msb_eq_getLsbD_last]
  exact BitVec.getLsbD_add_add_bool (Nat.sub_lt hw Nat.one_pos) x y b

/-- The carry-out is the majority of the operands' top bits and the carry into them (40_addsub.md R81). -/
theorem addCore_snd_majority {w : Nat} (hw : 0 < w) (x y : BitVec w) (b : Bool) :
    (addCore x y ((BitVec.ofBool b).setWidth w)).2.toNat =
      (Bool.atLeastTwo x.msb y.msb (BitVec.carry (w - 1) x y b)).toNat := by
  have hsum := addCore_fst_msb hw x y b
  simp only [addCore] at hsum ⊢
  rw [carryOut_toNat hw, hsum]
  cases x.msb <;> cases y.msb <;> cases BitVec.carry (w - 1) x y b <;> rfl

/-- The carry-out is the carry out of all W bits. -/
theorem addCore_snd_eq_carry {w : Nat} (hw : 0 < w) (x y : BitVec w) (b : Bool) :
    (addCore x y ((BitVec.ofBool b).setWidth w)).2.toNat = (BitVec.carry w x y b).toNat := by
  have hcarry := BitVec.carry_succ (w - 1) x y b
  rw [Nat.sub_add_cancel hw, ← BitVec.msb_eq_getLsbD_last, ← BitVec.msb_eq_getLsbD_last] at hcarry
  rw [addCore_snd_majority hw, hcarry]

theorem addCore_snd_le_one {w : Nat} (hw : 0 < w) (x y : BitVec w) (b : Bool) :
    (addCore x y ((BitVec.ofBool b).setWidth w)).2.toNat ≤ 1 := by
  rw [addCore_snd_eq_carry hw]
  exact Bool.toNat_le _

/-- Carry-out and sum together are the exact sum (40_addsub.md R81). -/
theorem addCore_exact {w : Nat} (hw : 0 < w) (x y : BitVec w) (b : Bool) :
    (addCore x y ((BitVec.ofBool b).setWidth w)).2.toNat * 2 ^ w +
      (addCore x y ((BitVec.ofBool b).setWidth w)).1.toNat = x.toNat + y.toNat + b.toNat := by
  have h1 : 1 < 2 ^ w := Nat.one_lt_two_pow hw.ne'
  have hbit : ((BitVec.ofBool b).setWidth w).toNat = b.toNat := by
    cases b <;> simp [Nat.mod_eq_of_lt h1]
  have hx := x.isLt
  have hy := y.isLt
  have hb := b.toNat_le
  rw [addCore_snd_eq_carry hw, addCore_fst_toNat, hbit, sumOf, BitVec.carry_width]
  by_cases h : 2 ^ w ≤ x.toNat + y.toNat + b.toNat
  · simp only [ge_iff_le, h, decide_true, Bool.toNat_true]
    rw [Nat.mod_eq_sub_mod h, Nat.mod_eq_of_lt (by omega)]
    omega
  · simp only [ge_iff_le, h, decide_false, Bool.toNat_false]
    rw [Nat.mod_eq_of_lt (by omega)]
    omega

/-- The carry-out is 1 exactly when the sum reaches M. -/
theorem carry_eq_one_iff {sum out M t : Nat} (hlt : sum < M) (hout : out ≤ 1) (h : out * M + sum = t) :
    out = 1 ↔ M ≤ t := by
  rcases Nat.le_one_iff_eq_zero_or_eq_one.mp hout with rfl | rfl <;> omega

/-! ### A borrow of 0 or 1: the add of the complement -/

theorem subCore_fst_eq_addCore {w : Nat} (x y : BitVec w) (b : Bool) :
    (subCore x y ((BitVec.ofBool b).setWidth w)).1 = (addCore x (~~~y) ((BitVec.ofBool !b).setWidth w)).1 := by
  have hone : (1#1).setWidth w = 1#w := BitVec.setWidth_ofNat_one_eq_ofNat_one_of_lt Nat.one_pos
  simp only [subCore, addCore, BitVec.sub_eq_add_neg x y, BitVec.neg_eq_not_add]
  cases b
  · simp [hone, BitVec.add_assoc]
  · simp [hone, ← BitVec.add_assoc]

/-- The borrow-out is the complement of that add's carry-out. -/
theorem subCore_snd_eq_addCore {w : Nat} (hw : 0 < w) (x y : BitVec w) (b : Bool) :
    (subCore x y ((BitVec.ofBool b).setWidth w)).2.toNat =
      1 - (addCore x (~~~y) ((BitVec.ofBool !b).setWidth w)).2.toNat := by
  have hdiff := subCore_fst_eq_addCore x y b
  simp only [subCore, addCore] at hdiff ⊢
  rw [borrowOut_toNat hw, carryOut_toNat hw, hdiff, BitVec.msb_not]
  simp only [hw, decide_true, Bool.true_and]
  generalize (x + ~~~y + _).msb = d
  cases x.msb <;> cases y.msb <;> cases d <;> rfl

/-- Difference and borrow-out together are the exact difference (40_addsub.md R91). -/
theorem subCore_exact {w : Nat} (hw : 0 < w) (x y : BitVec w) (b : Bool) :
    (subCore x y ((BitVec.ofBool b).setWidth w)).1.toNat + y.toNat + b.toNat =
      x.toNat + (subCore x y ((BitVec.ofBool b).setWidth w)).2.toNat * 2 ^ w := by
  have hadd := addCore_exact hw x (~~~y) (!b)
  have hnot : (~~~y).toNat = 2 ^ w - 1 - y.toNat := BitVec.toNat_not
  have hy := y.isLt
  have hb : (!b).toNat + b.toNat = 1 := by cases b <;> rfl
  rw [subCore_fst_eq_addCore, subCore_snd_eq_addCore hw]
  rcases Nat.le_one_iff_eq_zero_or_eq_one.mp (addCore_snd_le_one hw x (~~~y) (!b)) with h | h <;>
    simp only [h] at hadd ⊢ <;> omega

theorem subCore_snd_le_one {w : Nat} (hw : 0 < w) (x y : BitVec w) (b : Bool) :
    (subCore x y ((BitVec.ofBool b).setWidth w)).2.toNat ≤ 1 := by
  rw [subCore_snd_eq_addCore hw]
  exact Nat.sub_le _ _

/-- The borrow-out is 1 exactly when the difference is negative. -/
theorem borrow_eq_one_iff {difference out M x y : Nat} (hlt : difference < M) (hout : out ≤ 1)
    (h : difference + y = x + out * M) : out = 1 ↔ x < y := by
  rcases Nat.le_one_iff_eq_zero_or_eq_one.mp hout with rfl | rfl <;> omega

/-! ### What one instruction answers -/

/-- A subtract of a borrow of 0 or 1 answers the exact difference (40_addsub.md R91). -/
theorem subAt_exact {w : Nat} (hw : 0 < w) (hw64 : w ≤ 64) (x y borrow : Word) (s : State) (hb : low w borrow ≤ 1) :
    ∃ difference out : Word, subAt w x y borrow s = .next (answered s difference.toNat out.toNat) ∧
      difference.toNat < 2 ^ w ∧ out.toNat ≤ 1 ∧
      difference.toNat + (low w y + low w borrow) = low w x + out.toNat * 2 ^ w := by
  obtain ⟨b, hword, hbit⟩ := exists_bit_of_toNat_le_one (c := operand w borrow) hw (by simpa using hb)
  rw [operand_toNat] at hbit
  refine ⟨_, _, deliverPair_eq_zext64 _ s, zext64_lt _, ?_, ?_⟩ <;> simp only [zext64_toNat hw64, hword, hbit]
  · exact subCore_snd_le_one hw _ _ b
  · simpa [Nat.add_assoc] using subCore_exact hw (operand w x) (operand w y) b

/-- Settles O7: `subAt_exact` over the integers, and the sign of the difference. -/
theorem subExactLaw : Obligations.SubExactLaw := by
  intro wsel x y borrow s w hb
  rw [exec_sub]
  obtain ⟨difference, out, hans, hlt, hout, hexact⟩ :=
    subAt_exact (resolveWidth_pos s.cfg wsel) (resolveWidth_le s.cfg wsel) x y borrow s hb
  refine ⟨difference, out, hans, hlt, ?_, borrow_eq_one_iff hlt hout hexact⟩
  zify at hexact
  linarith

/-- The top bit of an operand is bit W-1 of its port (30_encoding.md R66). -/
theorem operand_msb {w : Nat} (hw : 0 < w) (p : Word) : (operand w p).msb = p.getLsbD (w - 1) := by
  simp [operand, BitVec.msb_setWidth, hw]

theorem getLsbD_zext64_top {w : Nat} (hw : 0 < w) (hw64 : w ≤ 64) (r : BitVec w) :
    (zext64 r).getLsbD (w - 1) = r.msb := by
  have h : w - 1 < 64 := by omega
  simp [zext64, BitVec.msb_eq_getLsbD_last, h]

/-- The carry into bit `i` of an add at width `w`, over the ports. -/
theorem carry_operand {i w : Nat} (hi : i ≤ w) (x y : Word) (b : Bool) :
    BitVec.carry i (operand w x) (operand w y) b = decide (2 ^ i ≤ low i x + low i y + b.toNat) := by
  have hlow (p : Word) : low w p % 2 ^ i = low i p := Nat.mod_mod_of_dvd _ (Nat.pow_dvd_pow 2 hi)
  simp only [BitVec.carry, operand_toNat, hlow, ge_iff_le]

/-- Settles O2: the exact sum, the carry-out and its majority of `addCore`, in the words they leave in. -/
theorem addExactLaw : Obligations.AddExactLaw := by
  intro wsel x y carry s
  have hw := resolveWidth_pos s.cfg wsel
  have hw64 := resolveWidth_le s.cfg wsel
  rw [exec_add]
  generalize resolveWidth s.cfg wsel = w at hw hw64 ⊢
  dsimp only
  intro hc
  obtain ⟨b, hword, hb⟩ := exists_bit_of_toNat_le_one (c := operand w carry) hw (by simpa using hc)
  rw [operand_toNat] at hb
  refine ⟨_, _, deliverPair_eq_zext64 _ s, zext64_lt _, ?_, ?_, ?_, ?_⟩ <;>
    simp only [zext64_toNat hw64, getLsbD_zext64_top hw hw64, hword, hb]
  · simpa using addCore_exact hw (operand w x) (operand w y) b
  · simp [addCore_snd_eq_carry hw, carry_operand le_rfl]
  · rw [addCore_fst_msb hw, carry_operand (Nat.sub_le w 1), operand_msb hw, operand_msb hw]
    cases x.getLsbD (w - 1) <;> cases y.getLsbD (w - 1) <;> simp
  · rw [addCore_snd_majority hw, carry_operand (Nat.sub_le w 1), operand_msb hw, operand_msb hw]

end Sys2Proof.Machine
end

section
/-!
PROOFS. The carry and borrow chains (spec/40_addsub.md R87, R97): one induction over the word list for both, from what a single
request answers.
-/

namespace Sys2Proof.Machine

open Sys2Proof.Safety

/-! ### One request -/

/-- An ADD (`ε = 1`) or SUB (`ε = -1`) of a carry or borrow of 0 or 1 answers two words that are the exact result (40_addsub.md
R81, R91). -/
def AnswersExactly (ε : Int) (fam : Family) : Prop :=
  ∀ (wsel : WidthSel) (x y c : Word) (s : State),
    let w := resolveWidth s.cfg wsel
    low w c ≤ 1 →
    ∃ r0 r1 : Word, exec (buildInstr fam wsel x y c) s = .next (answered s r0.toNat r1.toNat) ∧
      r0.toNat < 2 ^ w ∧ r1.toNat ≤ 1 ∧
      (r0.toNat : Int) + ε * (r1.toNat * 2 ^ w) = low w x + ε * (low w y + low w c)

theorem add_answersExactly : AnswersExactly 1 .add := by
  intro wsel x y c s w hc
  obtain ⟨sum, out, hexec, hlt, hexact, -, -, hmajority⟩ := addExactLaw wsel x y c s hc
  refine ⟨sum, out, hexec, hlt, hmajority ▸ Bool.toNat_le _, ?_⟩
  zify at hexact
  linarith

theorem sub_answersExactly : AnswersExactly (-1) .sub := by
  intro wsel x y c s w hc
  rw [exec_sub]
  obtain ⟨difference, out, hans, hlt, hout, hexact⟩ :=
    subAt_exact (resolveWidth_pos s.cfg wsel) (resolveWidth_le s.cfg wsel) x y c s hc
  refine ⟨difference, out, hans, hlt, hout, ?_⟩
  zify at hexact
  linarith

/-- A request answered with result words puts its R0 before the words of the rest, which takes its R1 as carry. -/
theorem chain_cons {request : Word → Word → Word → Instr} {p : Word × Word} {c r0 r1 : Word} {s : State}
    (h : exec (request p.1 p.2 c) s = .next (answered s r0.toNat r1.toNat)) (rest : List (Word × Word)) :
    chain request (p :: rest) c s =
      (chain request rest r1 (answered s r0.toNat r1.toNat)).map fun q => (r0 :: q.1, q.2) := by
  simp [chain, h]

/-- A chain reads bits [W-1:0] of its first carry only (30_encoding.md R66). -/
theorem chain_congr_low (fam : Family) (wsel : WidthSel) {words : List (Word × Word)} (hne : words ≠ []) {c c' : Word}
    (s : State) (h : low (resolveWidth s.cfg wsel) c = low (resolveWidth s.cfg wsel) c') :
    chain (buildInstr fam wsel) words c s = chain (buildInstr fam wsel) words c' s := by
  cases words with
  | nil => exact absurd rfl hne
  | cons p rest => simp only [chain, exec_congr_low fam wsel s rfl rfl h]

/-! ### The whole chain -/

/-- A W-bit word before k words makes k + 1 words. -/
theorem wordsValue_cons_lt {w k r : Nat} {rs : List Nat} (hr : r < 2 ^ w) (hrs : wordsValue w rs < 2 ^ (k * w)) :
    wordsValue w (r :: rs) < 2 ^ ((k + 1) * w) := by
  calc r + 2 ^ w * wordsValue w rs < 2 ^ w * (wordsValue w rs + 1) := by rw [Nat.mul_add_one]; omega
    _ ≤ 2 ^ w * 2 ^ (k * w) := Nat.mul_le_mul_left _ hrs
    _ = 2 ^ ((k + 1) * w) := by rw [← Nat.pow_add, Nat.succ_mul, Nat.add_comm]

/-- The chain is answered throughout, and its words and its last R1, which is 0 or 1, are the exact result on the k-word
numbers for the first carry or borrow `c`. -/
def ChainAnswersExactly (ε : Int) (w : Nat) (words : List (Word × Word)) (c : Nat) (o : Option (List Word × Word)) : Prop :=
  ∃ (results : List Word) (last : Word),
    o = some (results, last) ∧
    results.length = words.length ∧
    wordsValue w (results.map fun r => r.toNat) < 2 ^ (words.length * w) ∧
    last.toNat ≤ 1 ∧
    (wordsValue w (results.map fun r => r.toNat) : Int) + ε * (last.toNat * 2 ^ (words.length * w)) =
      wordsValue w (words.map fun p => low w p.1) + ε * (wordsValue w (words.map fun p => low w p.2) + c)

/-- The carries between the words cancel: induction on the words, at every first carry or borrow of 0 or 1. -/
theorem chain_answersExactly {ε : Int} {fam : Family} (h : AnswersExactly ε fam) {wsel : WidthSel} {w : Nat}
    (words : List (Word × Word)) (c : Word) (s : State) (hw : resolveWidth s.cfg wsel = w) (hc : c.toNat ≤ 1) :
    ChainAnswersExactly ε w words c.toNat (chain (buildInstr fam wsel) words c s) := by
  induction words generalizing c s with
  | nil => exact ⟨[], c, rfl, rfl, by simp [wordsValue], hc, by simp [wordsValue]⟩
  | cons p rest ih =>
    subst hw
    have hlow : low (resolveWidth s.cfg wsel) c = c.toNat :=
      Nat.mod_eq_of_lt (hc.trans_lt (Nat.one_lt_two_pow (resolveWidth_pos s.cfg wsel).ne'))
    obtain ⟨r0, r1, hexec, hr0, hr1, hfirst⟩ := h wsel p.1 p.2 c s (hlow.trans_le hc)
    obtain ⟨results, last, hchain, hlen, hlt, hlast, hrest⟩ := ih r1 (answered s r0.toNat r1.toNat) rfl hr1
    refine ⟨r0 :: results, last, ?_, congrArg Nat.succ hlen, wordsValue_cons_lt hr0 hlt, hlast, ?_⟩
    · rw [chain_cons hexec, hchain]
      rfl
    · rw [hlow] at hfirst
      simp only [List.map_cons, wordsValue, List.length_cons]
      push_cast
      linear_combination hfirst + 2 ^ resolveWidth s.cfg wsel * hrest

/-- The same at every first carry or borrow whose low bits are 0 or 1: the chain reads no others. -/
theorem chain_answersExactly_low {ε : Int} {fam : Family} (h : AnswersExactly ε fam) (wsel : WidthSel)
    {words : List (Word × Word)} (hne : words ≠ []) (c : Word) (s : State) (hc : low (resolveWidth s.cfg wsel) c ≤ 1) :
    ChainAnswersExactly ε (resolveWidth s.cfg wsel) words (low (resolveWidth s.cfg wsel) c)
      (chain (buildInstr fam wsel) words c s) := by
  have hread := low_zext64 (resolveWidth_le s.cfg wsel) (operand (resolveWidth s.cfg wsel) c)
  have hvalue := zext64_toNat (resolveWidth_le s.cfg wsel) (operand (resolveWidth s.cfg wsel) c)
  rw [operand_toNat] at hread hvalue
  rw [chain_congr_low fam wsel hne s hread.symm, ← hvalue]
  exact chain_answersExactly h words _ s rfl (hvalue.trans_le hc)

/-- Settles O4: `chain_answersExactly_low` for ADD. -/
theorem addCarryChainAddsWordLists : Obligations.AddCarryChainAddsWordLists := by
  intro wsel s words c0 w x y hne hc
  obtain ⟨sums, last, hchain, hlen, hlt, hlast, hexact⟩ := chain_answersExactly_low add_answersExactly wsel hne c0 s hc
  have hsum : last.toNat * 2 ^ (words.length * w) + wordsValue w (sums.map fun r => r.toNat) = x + y + low w c0 := by
    zify
    linarith
  refine ⟨sums, last, hchain, hlen, ?_, carry_eq_one_iff hlt hlast hsum⟩
  rw [← hsum, Nat.mul_add_mod']
  exact (Nat.mod_eq_of_lt hlt).symm

/-- Settles O9: `chain_answersExactly_low` for SUB. -/
theorem subBorrowChainSubtractsWordLists : Obligations.SubBorrowChainSubtractsWordLists := by
  intro wsel s words b0 w x y hne hb
  obtain ⟨differences, last, hchain, hlen, hlt, hlast, hexact⟩ :=
    chain_answersExactly_low sub_answersExactly wsel hne b0 s hb
  have hdifference : (x : Int) - y - low w b0 =
      wordsValue w (differences.map fun r => r.toNat) + (2 ^ (words.length * w) : Nat) * -(last.toNat : Int) := by
    push_cast
    linarith
  refine ⟨differences, last, hchain, hlen, ?_, borrow_eq_one_iff hlt hlast ?_⟩
  · rw [hdifference, Int.add_mul_emod_self_left]
    exact (Int.emod_eq_of_lt (Int.natCast_nonneg _) (by exact_mod_cast hlt)).symm
  · zify
    linarith

end Sys2Proof.Machine
end

section
/-!
PROOFS. Multiplication (spec/41_mul.md): the answer of a multiply and what it reads (R110, R117), the bounds of its high
half (R116), and the partial-product datapath over exact integers (R115).
-/

namespace Sys2Proof.Machine

open Sys2Proof.Safety

/-! ### The answer, and what it reads -/

/-- The answer of MUL32, MUL64 and MUL, over exact integers (41_mul.md R110). -/
theorem exec_mul_eq (wsel : WidthSel) (x y c : Word) (s : State) :
    exec (buildInstr .mul wsel x y c) s =
      let w := resolveWidth s.cfg wsel
      .next (answered s (low w x * low w y / 2 ^ w) (low w x * low w y % 2 ^ w)) :=
  (exec_mul wsel x y c s).trans (mulAt_eq _ x y s)

/-- Settles O11: `exec_mul_eq` at each width select. -/
theorem mulAnswersExactProduct : Obligations.MulAnswersExactProduct := fun x y c s =>
  ⟨exec_mul_eq .w32 x y c s, exec_mul_eq .w64 x y c s, exec_mul_eq .native x y c s⟩

/-- An operation width depends on NATIVE_W and on nothing else of the configuration (30_encoding.md R65). -/
theorem resolveWidth_congr {cfg cfg' : Config} (h : cfg.nativeW = cfg'.nativeW) (wsel : WidthSel) :
    resolveWidth cfg wsel = resolveWidth cfg' wsel := by
  cases wsel with
  | w32 | w64 => rfl
  | native => exact congrArg Width.bits h

/-- Settles O13: the words of `exec_mul_eq` mention neither C nor the state, and its frame holds the latch. -/
theorem mulFaultsNeverAndReadsNoState : Obligations.MulFaultsNeverAndReadsNoState := by
  intro wsel x y c c' s s' hcfg
  have hexec' := exec_mul_eq wsel x y c' s'
  rw [← resolveWidth_congr hcfg] at hexec'
  exact ⟨_, _, _, _, exec_mul_eq wsel x y c s, hexec', rfl, rfl, rfl, rfl, rfl, rfl⟩

/-! ### The bounds of the product -/

/-- The high half is below a non-zero factor, because the other factor is below the base (41_mul.md R116). -/
theorem mul_div_lt_left {M x y : Nat} (hy : y < M) (hx : 1 ≤ x) : x * y / M < x :=
  Nat.div_lt_of_lt_mul (Nat.mul_comm M x ▸ Nat.mul_lt_mul_of_pos_left hy hx)

theorem mul_div_lt_right {M x y : Nat} (hx : x < M) (hy : 1 ≤ y) : x * y / M < y :=
  Nat.mul_comm x y ▸ mul_div_lt_left hx hy

theorem mul_div_le {M x y : Nat} (hx : x < M) (hy : y < M) : x * y / M ≤ M - 2 := by
  rcases Nat.eq_zero_or_pos x with rfl | hpos
  · rw [Nat.zero_mul, Nat.zero_div]
    exact Nat.zero_le _
  · have := mul_div_lt_left hy hpos
    omega

/-- The halves of the largest product: (M - 1)² = (M - 2) M + 1 (41_mul.md R116). -/
theorem sq_pred_div_mod {M : Nat} (hM : 2 ≤ M) :
    (M - 1) * (M - 1) / M = M - 2 ∧ (M - 1) * (M - 1) % M = 1 := by
  obtain ⟨k, rfl⟩ := Nat.exists_eq_add_of_le' hM
  rw [Nat.div_mod_unique (by omega)]
  refine ⟨?_, by omega⟩
  change 1 + (k + 2) * k = (k + 1) * (k + 1)
  ring

/-- Only the largest product reaches the bound: a high half above 0 has both factors above it (41_mul.md R116). -/
theorem mul_div_eq_iff {M x y : Nat} (hM : 2 < M) (hx : x < M) (hy : y < M) :
    x * y / M = M - 2 ↔ x = M - 1 ∧ y = M - 1 := by
  constructor
  · intro h
    have hxpos : 1 ≤ x := Nat.pos_of_ne_zero fun h0 => by rw [h0, Nat.zero_mul, Nat.zero_div] at h; omega
    have hypos : 1 ≤ y := Nat.pos_of_ne_zero fun h0 => by rw [h0, Nat.mul_zero, Nat.zero_div] at h; omega
    have := mul_div_lt_left hy hxpos
    have := mul_div_lt_right hx hypos
    omega
  · rintro ⟨rfl, rfl⟩
    exact (sq_pred_div_mod hM.le).1

/-- Settles O12: the bounds of the halves of `low w x * low w y`, in the words they leave in. -/
theorem mulProductBounds : Obligations.MulProductBounds := by
  intro wsel x y c s w
  have hM : 2 < 2 ^ w := by
    have hw : w = 32 ∨ w = 64 := resolveWidth_cases s.cfg wsel
    rcases hw with hw | hw <;> rw [hw] <;> decide
  have hx := low_lt w x
  have hy := low_lt w y
  refine ⟨_, _, (exec_mul wsel x y c s).trans (deliverPair_eq_zext64 _ s), ?_⟩
  simp only [zext64_toNat (resolveWidth_le s.cfg wsel), mulCore_fst_toNat, mulCore_snd_toNat, operand_toNat]
  refine ⟨mul_div_le hx hy, mul_div_eq_iff hM hx hy, fun h => ?_, mul_div_lt_right hx, mul_div_lt_left hy⟩
  obtain ⟨hx', hy'⟩ := (mul_div_eq_iff hM hx hy).mp h
  rw [hx', hy']
  exact (sq_pred_div_mod hM.le).2

/-! ### The partial-product datapath: its fields, the mask and the shifts as remainders and quotients of 2^h -/

theorem mulPartial_t (w x y : Nat) : (mulPartial w x y).t = x % 2 ^ (w / 2) * (y % 2 ^ (w / 2)) := by
  simp only [mulPartial, Nat.and_two_pow_sub_one_eq_mod]

theorem mulPartial_m1 (w x y : Nat) :
    (mulPartial w x y).m1 = x / 2 ^ (w / 2) * (y % 2 ^ (w / 2)) + (mulPartial w x y).t / 2 ^ (w / 2) := by
  simp only [mulPartial, Nat.and_two_pow_sub_one_eq_mod, Nat.shiftRight_eq_div_pow]

theorem mulPartial_m2 (w x y : Nat) :
    (mulPartial w x y).m2 = x % 2 ^ (w / 2) * (y / 2 ^ (w / 2)) + (mulPartial w x y).m1 % 2 ^ (w / 2) := by
  simp only [mulPartial, Nat.and_two_pow_sub_one_eq_mod, Nat.shiftRight_eq_div_pow]

theorem mulPartial_hi (w x y : Nat) :
    (mulPartial w x y).hi = x / 2 ^ (w / 2) * (y / 2 ^ (w / 2)) + (mulPartial w x y).m1 / 2 ^ (w / 2) +
      (mulPartial w x y).m2 / 2 ^ (w / 2) := by
  simp only [mulPartial, Nat.shiftRight_eq_div_pow]

/-- The two parts of `lo` share no bit, so their OR is their sum. -/
theorem mulPartial_lo (w x y : Nat) :
    (mulPartial w x y).lo =
      (mulPartial w x y).m2 % 2 ^ (w / 2) * 2 ^ (w / 2) + (mulPartial w x y).t % 2 ^ (w / 2) := by
  rw [← Nat.shiftLeft_eq, Nat.shiftLeft_add_eq_or_of_lt (Nat.mod_lt _ (Nat.two_pow_pos _))]
  simp only [mulPartial, Nat.and_two_pow_sub_one_eq_mod]

/-- A product of two digits and a third digit: (B - 1)² + (B - 1) = B² - B (41_mul.md R115). -/
theorem mul_add_le_sq_sub {B a b c : Nat} (ha : a < B) (hb : b < B) (hc : c < B) : a * b + c ≤ B * B - B := by
  calc a * b + c ≤ (B - 1) * (B - 1) + (B - 1) :=
        Nat.add_le_add (Nat.mul_le_mul (Nat.le_pred_of_lt ha) (Nat.le_pred_of_lt hb)) (Nat.le_pred_of_lt hc)
    _ = (B - 1) * B := by rw [← Nat.mul_succ, Nat.succ_eq_add_one, Nat.sub_add_cancel (by omega)]
    _ = B * B - B := by rw [Nat.sub_mul, Nat.one_mul]

/-! ### Its bounds and its product, at a width that is twice the half width -/

section HalfWidth

variable {w x y : Nat} (hw : 2 ^ (w / 2) * 2 ^ (w / 2) = 2 ^ w)

include hw

/-- The upper half of a W-bit operand is one digit. -/
theorem upper_half_lt (hx : x < 2 ^ w) : x / 2 ^ (w / 2) < 2 ^ (w / 2) :=
  Nat.div_lt_of_lt_mul (hw ▸ hx)

theorem mulPartial_t_lt : (mulPartial w x y).t < 2 ^ w := by
  rw [mulPartial_t, ← hw]
  exact Nat.mul_lt_mul'' (Nat.mod_lt _ (Nat.two_pow_pos _)) (Nat.mod_lt _ (Nat.two_pow_pos _))

theorem mulPartial_m1_le (hx : x < 2 ^ w) : (mulPartial w x y).m1 ≤ 2 ^ w - 2 ^ (w / 2) := by
  rw [mulPartial_m1, ← hw]
  exact mul_add_le_sq_sub (upper_half_lt hw hx) (Nat.mod_lt _ (Nat.two_pow_pos _))
    (upper_half_lt hw (mulPartial_t_lt hw))

theorem mulPartial_m2_le (hy : y < 2 ^ w) : (mulPartial w x y).m2 ≤ 2 ^ w - 2 ^ (w / 2) := by
  rw [mulPartial_m2, ← hw]
  exact mul_add_le_sq_sub (Nat.mod_lt _ (Nat.two_pow_pos _)) (upper_half_lt hw hy) (Nat.mod_lt _ (Nat.two_pow_pos _))

theorem mulPartial_lo_lt : (mulPartial w x y).lo < 2 ^ w := by
  have ht := Nat.mod_lt (mulPartial w x y).t (Nat.two_pow_pos (w / 2))
  have hm2 := Nat.mod_lt (mulPartial w x y).m2 (Nat.two_pow_pos (w / 2))
  rw [mulPartial_lo, ← hw]
  calc _ < ((mulPartial w x y).m2 % 2 ^ (w / 2) + 1) * 2 ^ (w / 2) := by rw [Nat.add_one_mul]; omega
    _ ≤ 2 ^ (w / 2) * 2 ^ (w / 2) := Nat.mul_le_mul_right _ hm2

/-- The halves make up the product: the carries between the digits cancel (41_mul.md R115). -/
theorem mulPartial_exact : (mulPartial w x y).lo + 2 ^ w * (mulPartial w x y).hi = x * y := by
  have hx := Nat.div_add_mod x (2 ^ (w / 2))
  have hy := Nat.div_add_mod y (2 ^ (w / 2))
  have ht := Nat.div_add_mod (mulPartial w x y).t (2 ^ (w / 2))
  have hm1 := Nat.div_add_mod (mulPartial w x y).m1 (2 ^ (w / 2))
  have hm2 := Nat.div_add_mod (mulPartial w x y).m2 (2 ^ (w / 2))
  have et := mulPartial_t w x y
  have em1 := mulPartial_m1 w x y
  have em2 := mulPartial_m2 w x y
  rw [mulPartial_lo, mulPartial_hi, ← hw]
  generalize 2 ^ (w / 2) = B at *
  linear_combination B * (hm2 + em2 + hm1 + em1) + ht + et + hx * (B * (y / B) + y % B) + x * hy

/-- The halves are the quotient and the remainder of the product, as in MulCore (41_mul.md R110). -/
theorem mulPartial_halves : x * y / 2 ^ w = (mulPartial w x y).hi ∧ x * y % 2 ^ w = (mulPartial w x y).lo :=
  (Nat.div_mod_unique (Nat.two_pow_pos w)).mpr ⟨mulPartial_exact hw, mulPartial_lo_lt hw⟩

end HalfWidth

/-- Both widths are twice a half width. -/
theorem two_pow_half_mul_self (width : Width) :
    2 ^ (width.bits / 2) * 2 ^ (width.bits / 2) = 2 ^ width.bits := by
  cases width <;> rfl

/-- Settles O14: no intermediate wraps, and `mulPartial_halves` are MulCore's halves. -/
theorem mulPartialEqualsMulCore : Obligations.MulPartialEqualsMulCore := by
  intro width x y w p
  have hw : 2 ^ (w / 2) * 2 ^ (w / 2) = 2 ^ w := two_pow_half_mul_self width
  obtain ⟨hhi, hlo⟩ := mulPartial_halves (x := x.toNat) (y := y.toNat) hw
  refine ⟨mulPartial_t_lt hw, mulPartial_m1_le hw x.isLt, mulPartial_m2_le hw y.isLt, ?_, mulPartial_lo_lt hw, ?_⟩
  · exact hhi ▸ Nat.div_lt_of_lt_mul (Nat.mul_lt_mul'' x.isLt y.isLt)
  · rw [mulCore, hhi, hlo]

end Sys2Proof.Machine
end

section
/-!
PROOFS. Division (spec/42_div.md R134 to R136): the answer on a valid input and its uniqueness, a zero divisor, and when the
quotient fits.
-/

namespace Sys2Proof.Machine

open Sys2Proof.Safety

/-! ### The divide law, and a zero divisor -/

/-- The words are below 2^W, and they are the quotient and the remainder of `hi * 2^W + lo` by `x` (42_div.md R134). -/
def DivideLaw (w : Nat) (hi lo x quo rem : Word) : Prop :=
  quo.toNat < 2 ^ w ∧ rem.toNat < 2 ^ w ∧
  quo.toNat * low w x + rem.toNat = low w hi * 2 ^ w + low w lo ∧ rem.toNat < low w x ∧
  ∀ q m : Nat, q * low w x + m = low w hi * 2 ^ w + low w lo → m < low w x → q = quo.toNat ∧ m = rem.toNat

/-- Quotient and remainder satisfy the law, and no other pair does. -/
theorem divideLaw_of_div_mod {w : Nat} {hi lo x quo rem : Word} (h : low w hi < low w x)
    (hquo : quo.toNat = (low w hi * 2 ^ w + low w lo) / low w x)
    (hrem : rem.toNat = (low w hi * 2 ^ w + low w lo) % low w x) : DivideLaw w hi lo x quo rem := by
  have hpos : 0 < low w x := Nat.zero_lt_of_lt h
  have hmod : rem.toNat < low w x := hrem ▸ Nat.mod_lt _ hpos
  refine ⟨hquo ▸ quotient_lt (low_lt w lo) h, hmod.trans (low_lt w x), ?_, hmod, fun q m hz hm => ?_⟩
  · rw [hquo, hrem]
    exact Nat.div_add_mod' _ _
  · rw [Nat.add_comm, Nat.mul_comm] at hz
    obtain ⟨hq, hm'⟩ := (Nat.div_mod_unique hpos).mpr ⟨hz, hm⟩
    exact ⟨hq.symm.trans hquo.symm, hm'.symm.trans hrem.symm⟩

/-- A W-bit value is the value of a port word. -/
theorem exists_word_toNat_eq {w n : Nat} (hw : w ≤ 64) (hn : n < 2 ^ w) : ∃ p : Word, p.toNat = n :=
  ⟨BitVec.ofNatLT n (hn.trans_le (Nat.pow_le_pow_right Nat.two_pos hw)), rfl⟩

/-- The answer of a divide on a valid input (42_div.md R134). -/
theorem exec_div_valid (wsel : WidthSel) (hi lo x : Word) (s : State)
    (h : low (resolveWidth s.cfg wsel) hi < low (resolveWidth s.cfg wsel) x) :
    ∃ quo rem : Word, exec (buildInstr .div wsel hi lo x) s = .next (answered s quo.toNat rem.toNat) ∧
      DivideLaw (resolveWidth s.cfg wsel) hi lo x quo rem := by
  rw [exec_div]
  have hw := resolveWidth_le s.cfg wsel
  generalize resolveWidth s.cfg wsel = w at h hw ⊢
  obtain ⟨h0, -⟩ | ⟨-, hle, -⟩ | ⟨-, -, hans⟩ := divAt_cases w (opcodeByte .div wsel) hi lo x s
  · omega
  · omega
  · have hmod := Nat.mod_lt (low w hi * 2 ^ w + low w lo) (Nat.zero_lt_of_lt h)
    obtain ⟨quo, hquo⟩ := exists_word_toNat_eq hw (quotient_lt (low_lt w lo) h)
    obtain ⟨rem, hrem⟩ := exists_word_toNat_eq hw (hmod.trans (low_lt w x))
    exact ⟨quo, rem, hquo ▸ hrem ▸ hans, divideLaw_of_div_mod h hquo hrem⟩

/-- Settles O16: `exec_div_valid` at each width select. -/
theorem divAnswersQuotientAndRemainder : Obligations.DivAnswersQuotientAndRemainder := fun hi lo x s =>
  ⟨fun _ => exec_div_valid .w32 hi lo x s, fun _ => exec_div_valid .w64 hi lo x s,
    fun _ => exec_div_valid .native hi lo x s⟩

/-- In an unfaulted block a zero divisor is recorded under the opcode byte sent (42_div.md R135, 60_exceptions.md R161). -/
theorem exec_div_zero (wsel : WidthSel) (hi lo x : Word) {s : State} (hflt : s.flt = .none)
    (h : low (resolveWidth s.cfg wsel) x = 0) :
    exec (buildInstr .div wsel hi lo x) s = .next (recorded s .divByZero (opcodeByte .div wsel)) := by
  rw [exec_div, ← raise_unfaulted hflt]
  obtain ⟨-, hans⟩ | ⟨hne, -⟩ | ⟨hne, -⟩ := divAt_cases (resolveWidth s.cfg wsel) (opcodeByte .div wsel) hi lo x s
  · exact hans
  · exact absurd h hne
  · exact absurd h hne

/-- Settles O17: `exec_div_zero` at each width select. -/
theorem divByZeroRecordsFault : Obligations.DivByZeroRecordsFault := fun hi lo x _ hflt =>
  ⟨exec_div_zero .w32 hi lo x hflt, exec_div_zero .w64 hi lo x hflt, exec_div_zero .native hi lo x hflt⟩

/-! ### When the quotient fits -/

/-- The dividend reaches `x * M` exactly when its upper digit reaches `x` (42_div.md R136). -/
theorem mul_add_lt_mul_iff {M hi lo x : Nat} (hlo : lo < M) : hi * M + lo < x * M ↔ hi < x := by
  have hM : 0 < M := Nat.zero_lt_of_lt hlo
  rw [← Nat.div_lt_iff_lt_mul hM, Nat.mul_comm, Nat.mul_add_div hM, Nat.div_eq_of_lt hlo, Nat.add_zero]

/-- The core's answer on a valid input (42_div.md R130). -/
theorem divCore_valid {w : Nat} {hi lo x : BitVec w} (h : hi.toNat < x.toNat) :
    divCore hi lo x = .result (BitVec.ofNat w ((hi.toNat * 2 ^ w + lo.toNat) / x.toNat))
      (BitVec.ofNat w ((hi.toNat * 2 ^ w + lo.toNat) % x.toNat)) := by
  obtain ⟨rfl, -⟩ | ⟨-, hle, -⟩ | ⟨-, -, hans⟩ := divCore_cases hi lo x
  · simp at h
  · exact absurd h (Nat.not_lt.mpr hle)
  · exact hans

/-- Settles O18: the classes of `divCore_cases` are those of `mul_add_lt_mul_iff`. -/
theorem quotientFitsExactlyWhenHiBelowDivisor : Obligations.QuotientFitsExactlyWhenHiBelowDivisor := by
  intro width hi lo x hx w z
  have hpos : 0 < x.toNat := Nat.pos_of_ne_zero (by simpa [← BitVec.toNat_inj] using hx)
  refine ⟨?_, mul_add_lt_mul_iff lo.isLt, ?_⟩
  · rw [Nat.div_lt_iff_lt_mul hpos, Nat.mul_comm x.toNat]
  · obtain ⟨h0, -⟩ | ⟨-, hle, hans⟩ | ⟨-, hlt, hans⟩ := divCore_cases hi lo x
    · exact absurd h0 hx
    · simp [hans, hle]
    · simp [hans, hlt]

end Sys2Proof.Machine
end

section
/-!
PROOFS. The normalization and the split of Algorithm D (spec/42_div.md R140, R141): they lose no bit of the divisor, and none of
a valid dividend.
-/

namespace Sys2Proof.Machine

/-! ### The fields of `divNormalize`, the mask and the shifts as products, quotients and remainders of powers of two -/

theorem divNormalize_un32 (w hi lo x : Nat) :
    (divNormalize w hi lo x).un32 =
      (hi * 2 ^ (divNormalize w hi lo x).s % 2 ^ w ||| lo / 2 ^ (w - (divNormalize w hi lo x).s)) := by
  simp only [divNormalize, Nat.shiftLeft_eq, Nat.shiftRight_eq_div_pow]

theorem divNormalize_un10 (w hi lo x : Nat) :
    (divNormalize w hi lo x).un10 = lo * 2 ^ (divNormalize w hi lo x).s % 2 ^ w := by
  simp only [divNormalize, Nat.shiftLeft_eq]

theorem divNormalize_xhi (w hi lo x : Nat) :
    (divNormalize w hi lo x).xhi = (divNormalize w hi lo x).xn / 2 ^ (w / 2) := by
  simp only [divNormalize, Nat.shiftRight_eq_div_pow]

theorem divNormalize_xlo (w hi lo x : Nat) :
    (divNormalize w hi lo x).xlo = (divNormalize w hi lo x).xn % 2 ^ (w / 2) := by
  simp only [divNormalize, Nat.and_two_pow_sub_one_eq_mod]

theorem divNormalize_un1 (w hi lo x : Nat) :
    (divNormalize w hi lo x).un1 = (divNormalize w hi lo x).un10 / 2 ^ (w / 2) := by
  simp only [divNormalize, Nat.shiftRight_eq_div_pow]

theorem divNormalize_un0 (w hi lo x : Nat) :
    (divNormalize w hi lo x).un0 = (divNormalize w hi lo x).un10 % 2 ^ (w / 2) := by
  simp only [divNormalize, Nat.and_two_pow_sub_one_eq_mod]

theorem divNormalize_xlo_lt (w hi lo x : Nat) : (divNormalize w hi lo x).xlo < 2 ^ (w / 2) :=
  divNormalize_xlo w hi lo x ▸ Nat.mod_lt _ (Nat.two_pow_pos _)

theorem divNormalize_un0_lt (w hi lo x : Nat) : (divNormalize w hi lo x).un0 < 2 ^ (w / 2) :=
  divNormalize_un0 w hi lo x ▸ Nat.mod_lt _ (Nat.two_pow_pos _)

theorem divNormalize_un10_lt (w hi lo x : Nat) : (divNormalize w hi lo x).un10 < 2 ^ w :=
  divNormalize_un10 w hi lo x ▸ Nat.mod_lt _ (Nat.two_pow_pos _)

theorem divNormalize_un1_lt {w : Nat} (hw : 2 ^ (w / 2) * 2 ^ (w / 2) = 2 ^ w) (hi lo x : Nat) :
    (divNormalize w hi lo x).un1 < 2 ^ (w / 2) :=
  divNormalize_un1 w hi lo x ▸ upper_half_lt hw (divNormalize_un10_lt ..)

/-- The halves of the normalized divisor make it up (42_div.md R141). -/
theorem divNormalize_xn_split (w hi lo x : Nat) :
    (divNormalize w hi lo x).xn = (divNormalize w hi lo x).xhi * 2 ^ (w / 2) + (divNormalize w hi lo x).xlo := by
  rw [divNormalize_xhi, divNormalize_xlo, Nat.div_add_mod']

theorem divNormalize_un10_split (w hi lo x : Nat) :
    (divNormalize w hi lo x).un10 = (divNormalize w hi lo x).un1 * 2 ^ (w / 2) + (divNormalize w hi lo x).un0 := by
  rw [divNormalize_un1, divNormalize_un0, Nat.div_add_mod']

/-! ### What the shift keeps -/

/-- Shifted by its leading zeros, a non-zero word has its top bit set and loses no bit (42_div.md R140). -/
theorem shift_leadingZeros {w x : Nat} (hx : x < 2 ^ w) (hx0 : x ≠ 0) :
    leadingZeros w x < w ∧ 2 ^ w ≤ 2 * (x * 2 ^ leadingZeros w x) ∧ x * 2 ^ leadingZeros w x < 2 ^ w := by
  induction w with
  | zero => omega
  | succ w ih =>
    rw [leadingZeros]
    split
    · next htop =>
      have := Nat.ge_two_pow_of_testBit htop
      exact ⟨Nat.succ_pos w, by omega, by omega⟩
    · next htop =>
      have hlt : x < 2 ^ w := by
        by_contra hge
        exact htop (Nat.testBit_of_two_pow_le_and_two_pow_add_one_gt (by omega) hx)
      obtain ⟨hs, hle, hlt'⟩ := ih hlt
      have hdouble : x * 2 ^ (leadingZeros w x + 1) = 2 * (x * 2 ^ leadingZeros w x) := by ring
      rw [hdouble, Nat.pow_succ]
      exact ⟨by omega, by omega, by omega⟩

section Divisor

variable {w x : Nat} (hi lo : Nat) (hx : x < 2 ^ w) (hx0 : x ≠ 0)

include hx hx0

theorem divNormalize_s_lt : (divNormalize w hi lo x).s < w :=
  have ⟨hs, _⟩ := shift_leadingZeros hx hx0
  hs

/-- The shift loses no bit of the divisor (42_div.md R140). -/
theorem divNormalize_xn : (divNormalize w hi lo x).xn = x * 2 ^ (divNormalize w hi lo x).s := by
  obtain ⟨-, -, hlt⟩ := shift_leadingZeros hx hx0
  simp only [divNormalize, Nat.shiftLeft_eq, Nat.mod_eq_of_lt hlt]

theorem divNormalize_xn_lt : (divNormalize w hi lo x).xn < 2 ^ w :=
  have ⟨_, _, hlt⟩ := shift_leadingZeros hx hx0
  divNormalize_xn hi lo hx hx0 ▸ hlt

theorem divNormalize_xhi_lt (hw : 2 ^ (w / 2) * 2 ^ (w / 2) = 2 ^ w) :
    (divNormalize w hi lo x).xhi < 2 ^ (w / 2) :=
  divNormalize_xhi w hi lo x ▸ upper_half_lt hw (divNormalize_xn_lt hi lo hx hx0)

/-- The top bit of the normalized divisor is set (42_div.md R140). -/
theorem le_two_mul_divNormalize_xn : 2 ^ w ≤ 2 * (divNormalize w hi lo x).xn :=
  have ⟨_, hle, _⟩ := shift_leadingZeros hx hx0
  divNormalize_xn hi lo hx hx0 ▸ hle

/-- The upper half of the normalized divisor has its top bit set: the base is even, so the lower half cannot make up
for it (42_div.md R141). -/
theorem le_two_mul_divNormalize_xhi (hw : 2 ^ (w / 2) * 2 ^ (w / 2) = 2 ^ w) :
    2 ^ (w / 2) ≤ 2 * (divNormalize w hi lo x).xhi := by
  have hs := divNormalize_s_lt hi lo hx hx0
  have heven : 2 ∣ 2 ^ (w / 2) :=
    (Nat.prime_two.dvd_mul.mp (hw ▸ dvd_pow_self 2 (by omega))).elim id id
  have hxn := le_two_mul_divNormalize_xn hi lo hx hx0
  have hxlo := divNormalize_xlo_lt w hi lo x
  rw [divNormalize_xn_split, ← hw] at hxn
  have hlt : 2 ^ (w / 2) < 2 * (divNormalize w hi lo x).xhi + 2 := by
    refine Nat.lt_of_mul_lt_mul_right (a := 2 ^ (w / 2)) ?_
    rw [Nat.add_mul, Nat.mul_assoc]
    omega
  omega

/-- On a valid input the normalized dividend is exactly z * 2^s: no bit of `hi` leaves, and the bits that leave `lo` enter
below it (42_div.md R140). -/
theorem divNormalize_dividend (hlo : lo < 2 ^ w) (h : hi < x) :
    (divNormalize w hi lo x).un32 * 2 ^ w + (divNormalize w hi lo x).un10 =
      (hi * 2 ^ w + lo) * 2 ^ (divNormalize w hi lo x).s := by
  have hs := divNormalize_s_lt hi lo hx hx0
  have hfit := divNormalize_xn_lt hi lo hx hx0
  rw [divNormalize_xn hi lo hx hx0] at hfit
  rw [divNormalize_un32, divNormalize_un10]
  generalize (divNormalize w hi lo x).s = s at hs hfit ⊢
  have hpow : 2 ^ w = 2 ^ (w - s) * 2 ^ s := by rw [← Nat.pow_add, Nat.sub_add_cancel hs.le]
  have hshift : hi * 2 ^ s < 2 ^ w := (Nat.mul_le_mul_right _ h.le).trans_lt hfit
  have hcarry : lo / 2 ^ (w - s) < 2 ^ s := Nat.div_lt_of_lt_mul (hpow ▸ hlo)
  have hor : hi * 2 ^ s ||| lo / 2 ^ (w - s) = hi * 2 ^ s + lo / 2 ^ (w - s) := by
    rw [← Nat.shiftLeft_eq, Nat.shiftLeft_add_eq_or_of_lt hcarry]
  have hlow : lo / 2 ^ (w - s) * 2 ^ w + lo * 2 ^ s % 2 ^ w = lo * 2 ^ s := by
    rw [← Nat.mul_div_mul_right lo _ (Nat.two_pow_pos s), ← hpow, Nat.div_add_mod']
  rw [Nat.mod_eq_of_lt hshift, hor]
  linear_combination hlow

end Divisor

/-- Settles O23: the lemmas above, field by field. -/
theorem normalizationIsExact : Obligations.NormalizationIsExact := by
  intro width hi lo x w b hhi hlo hx hx0 n
  have hw : b * b = 2 ^ w := two_pow_half_mul_self width
  have hs : n.s < w := divNormalize_s_lt hi lo hx hx0
  have htop : 2 ^ w ≤ 2 * n.xn := le_two_mul_divNormalize_xn hi lo hx hx0
  have hxhi : b ≤ 2 * n.xhi := le_two_mul_divNormalize_xhi hi lo hx hx0 hw
  have hpow : 2 ^ w = 2 * 2 ^ (w - 1) := by rw [← Nat.pow_succ', Nat.succ_eq_add_one, Nat.sub_add_cancel (by omega)]
  exact ⟨by omega, divNormalize_xn hi lo hx hx0, by omega, divNormalize_xn_lt hi lo hx hx0,
    divNormalize_un32 .., divNormalize_un10 ..,
    divNormalize_xn_split .., divNormalize_xhi_lt hi lo hx hx0 hw, divNormalize_xlo_lt .., by omega,
    divNormalize_un10_split .., divNormalize_un1_lt hw .., divNormalize_un0_lt .., divNormalize_dividend hi lo hx hx0 hlo⟩

end Sys2Proof.Machine
end

section
/-!
PROOFS. Algorithm D (spec/42_div.md R142 to R151): the correction loop's bound, that it ends at the exact digit of a partial
dividend below the divisor, and that two such digits make up the core's quotient.
-/

namespace Sys2Proof.Machine

/-! ### The correction loop: its exits, and its bound -/

/-- The condition of a correction loop (42_div.md R142). -/
def CorrectionNeeded (b xlo un q rhat : Nat) : Prop :=
  q ≥ b ∨ q * xlo > b * rhat + un

section Loop

variable {b xhi xlo un q rhat : Nat}

/-- The loop ends where its condition fails. -/
theorem correctDigit_done (h : ¬ CorrectionNeeded b xlo un q rhat) (fuel : Nat) :
    correctDigit b xhi xlo un fuel q rhat = { q := q, rhat := rhat, bodies := 0 } := by
  cases fuel with
  | zero => rfl
  | succ fuel => exact if_neg h

/-- The loop ends after a body that brings `rhat` to `b`. -/
theorem correctDigit_break (h : CorrectionNeeded b xlo un q rhat) (hrhat : b ≤ rhat + xhi) (fuel : Nat) :
    correctDigit b xhi xlo un (fuel + 1) q rhat = { q := q - 1, rhat := rhat + xhi, bodies := 1 } :=
  (if_pos h).trans (if_pos hrhat)

/-- Otherwise the loop goes on after the body. -/
theorem correctDigit_again (h : CorrectionNeeded b xlo un q rhat) (hrhat : ¬ b ≤ rhat + xhi) (fuel : Nat) :
    correctDigit b xhi xlo un (fuel + 1) q rhat =
      { correctDigit b xhi xlo un fuel (q - 1) (rhat + xhi) with
        bodies := (correctDigit b xhi xlo un fuel (q - 1) (rhat + xhi)).bodies + 1 } :=
  (if_pos h).trans (if_neg hrhat)

/-- Two bodies bring `rhat` to `b`, because the divisor's upper half has its top bit set: the loop ends by then, with the same
outcome for every fuel of two or more (42_div.md R147). -/
theorem correctDigit_ends (hxhi : b ≤ 2 * xhi) :
    ∃ t : DigitTrace, t.bodies ≤ 2 ∧ (t.bodies = 2 → b ≤ t.rhat) ∧
      ∀ fuel, correctDigit b xhi xlo un (fuel + 2) q rhat = t := by
  by_cases h : CorrectionNeeded b xlo un q rhat
  · by_cases hrhat : b ≤ rhat + xhi
    · exact ⟨_, by simp, by simp, fun fuel => correctDigit_break h hrhat _⟩
    · by_cases h' : CorrectionNeeded b xlo un (q - 1) (rhat + xhi)
      · have hrhat' : b ≤ rhat + xhi + xhi := by omega
        refine ⟨{ q := q - 1 - 1, rhat := rhat + xhi + xhi, bodies := 2 }, le_rfl, fun _ => hrhat', fun fuel => ?_⟩
        rw [correctDigit_again h hrhat, correctDigit_break h' hrhat']
      · refine ⟨{ q := q - 1, rhat := rhat + xhi, bodies := 1 }, by simp, by simp, fun fuel => ?_⟩
        rw [correctDigit_again h hrhat, correctDigit_done h']
  · exact ⟨_, by simp, by simp, fun fuel => correctDigit_done h _⟩

/-- The model's fuel cuts nothing off, and a digit's loop runs at most two bodies (42_div.md R147). -/
theorem divDigit_ends (hxhi : b ≤ 2 * xhi) (xlo top un : Nat) :
    (divDigit b xhi xlo top un).bodies ≤ 2 ∧
    ((divDigit b xhi xlo top un).bodies = 2 → b ≤ (divDigit b xhi xlo top un).rhat) ∧
    ∀ fuel, 2 ≤ fuel →
      correctDigit b xhi xlo un fuel (top / xhi) (top - top / xhi * xhi) = divDigit b xhi xlo top un := by
  obtain ⟨t, hbodies, hbreak, hfuel⟩ :=
    correctDigit_ends (xlo := xlo) (un := un) (q := top / xhi) (rhat := top - top / xhi * xhi) hxhi
  obtain rfl : divDigit b xhi xlo top un = t := hfuel 1
  refine ⟨hbodies, hbreak, fun fuel h => ?_⟩
  obtain ⟨k, rfl⟩ := Nat.exists_eq_add_of_le' h
  exact hfuel k

end Loop

/-- Settles O25: `divDigit_ends` for both digits. -/
theorem correctionLoopRunsAtMostTwice : Obligations.CorrectionLoopRunsAtMostTwice := by
  intro width hi lo x w b hhi hlo hx hx0 d n
  have hxhi : b ≤ 2 * n.xhi := le_two_mul_divNormalize_xhi hi lo hx hx0 (two_pow_half_mul_self width)
  obtain ⟨hbodies, hbreak, hfuel⟩ := divDigit_ends hxhi n.xlo n.un32 n.un1
  obtain ⟨hbodies', hbreak', hfuel'⟩ := divDigit_ends hxhi n.xlo d.un21 n.un0
  exact ⟨hbodies, hbodies', hbreak, hbreak', fun fuel h => ⟨hfuel fuel h, hfuel' fuel h⟩⟩

/-! ### The corrected digit is the exact one -/

section Digit

variable {b xhi xlo top un q rhat : Nat}

/-- The cross-check fails exactly for a digit above the exact quotient (42_div.md R142). -/
theorem crossCheck_iff (hxn : 0 < xhi * b + xlo) (hq : q * xhi + rhat = top) :
    q * xlo > b * rhat + un ↔ (top * b + un) / (xhi * b + xlo) < q := by
  have hdividend : top * b + un = q * xhi * b + (b * rhat + un) := by rw [← hq]; ring
  rw [Nat.div_lt_iff_lt_mul hxn, hdividend, Nat.mul_add, ← Nat.mul_assoc, Nat.add_lt_add_iff_left]

/-- The halves of a divisor of two half-digits whose top bit is set (42_div.md R141). -/
structure NormalizedHalves (b xhi xlo : Nat) : Prop where
  xlo_lt : xlo < b
  xhi_lt : xhi < b
  top_bit : b ≤ 2 * xhi

theorem NormalizedHalves.xhi_pos (h : NormalizedHalves b xhi xlo) : 0 < xhi := by
  have := h.xhi_lt
  have := h.top_bit
  omega

/-- What every body of a correction loop keeps, for the exact digit `d`: the estimate is not below it, and `rhat` is what the
estimate leaves of `top` (42_div.md R142). -/
structure DigitEstimate (b xhi top d q rhat : Nat) : Prop where
  value : q * xhi + rhat = top
  digit_le : d ≤ q
  le_base : q ≤ b + 1
  rhat_lt : rhat < b

/-- A body takes one off the digit and adds `xhi` to what is left. -/
theorem sub_one_mul_add (h : 0 < q) (hq : q * xhi + rhat = top) : (q - 1) * xhi + (rhat + xhi) = top := by
  rw [← hq, Nat.sub_one_mul]
  have := Nat.le_mul_of_pos_left xhi h
  omega

/-- Once `rhat` has reached `b`, a digit of at most `b` passes the cross-check: it is not above the exact one. -/
theorem le_exact_of_le_rhat (hxn : 0 < xhi * b + xlo) (hxlo : xlo < b) (hq : q * xhi + rhat = top) (hqb : q ≤ b)
    (hrhat : b ≤ rhat) : q ≤ (top * b + un) / (xhi * b + xlo) := by
  rw [← Nat.not_lt, ← crossCheck_iff hxn hq, Nat.not_lt]
  exact (Nat.mul_le_mul hqb (hxlo.le.trans hrhat)).trans (Nat.le_add_right _ _)

/-- From an estimate that is not below the exact digit the loop comes down to it (42_div.md R142). -/
theorem correctDigit_q {fuel d : Nat} (hx : NormalizedHalves b xhi xlo) (hd : (top * b + un) / (xhi * b + xlo) = d)
    (hdb : d < b) (he : DigitEstimate b xhi top d q rhat) (hfuel : b ≤ rhat + fuel * xhi) :
    (correctDigit b xhi xlo un fuel q rhat).q = d := by
  have hxn : 0 < xhi * b + xlo := Nat.add_pos_left (Nat.mul_pos hx.xhi_pos (Nat.zero_lt_of_lt hdb)) xlo
  induction fuel generalizing q rhat with
  | zero => exact absurd he.rhat_lt (by omega)
  | succ fuel ih =>
    obtain ⟨hq, hdq, hqb, hrhat⟩ := he
    have hneeded : CorrectionNeeded b xlo un q rhat ↔ d < q := by
      rw [CorrectionNeeded, crossCheck_iff hxn hq, hd]
      omega
    by_cases h : CorrectionNeeded b xlo un q rhat
    · have hlt := hneeded.mp h
      have hq' := sub_one_mul_add (Nat.zero_lt_of_lt hlt) hq
      by_cases hbreak : b ≤ rhat + xhi
      · rw [correctDigit_break h hbreak]
        have hle : q - 1 ≤ d := hd ▸ le_exact_of_le_rhat hxn hx.xlo_lt hq' (by omega) hbreak
        exact Nat.le_antisymm hle (Nat.le_sub_one_of_lt hlt)
      · rw [correctDigit_again h hbreak]
        rw [Nat.succ_mul] at hfuel
        exact ih ⟨hq', Nat.le_sub_one_of_lt hlt, by omega, by omega⟩ (by omega)
    · rw [correctDigit_done h]
      exact Nat.le_antisymm (Nat.not_lt.mp (mt hneeded.mpr h)) hdq

/-- The trial digit is never below the exact digit (42_div.md R142). -/
theorem le_trialDigit (hxhi : 0 < xhi) (hun : un < b) : (top * b + un) / (xhi * b + xlo) ≤ top / xhi := by
  have hb : 0 < b := Nat.zero_lt_of_lt hun
  calc (top * b + un) / (xhi * b + xlo) ≤ (top * b + un) / (b * xhi) :=
        Nat.div_le_div_left (Nat.mul_comm b xhi ▸ Nat.le_add_right _ _) (Nat.mul_pos hb hxhi)
    _ = top / xhi := by
        rw [← Nat.div_div_eq_div_mul, Nat.mul_comm, Nat.mul_add_div hb, Nat.div_eq_of_lt hun, Nat.add_zero]

/-- The trial digit of a partial dividend below the divisor is at most one above the base (42_div.md R142). -/
theorem trialDigit_le (hx : NormalizedHalves b xhi xlo) (htop : top < xhi * b + xlo) : top / xhi ≤ b + 1 := by
  have := hx.xlo_lt
  have := hx.top_bit
  refine Nat.le_of_lt_succ (Nat.div_lt_of_lt_mul ?_)
  rw [Nat.mul_succ, Nat.mul_succ]
  omega

/-- The quotient of a partial dividend below the divisor is one digit. -/
theorem digit_lt {xn : Nat} (hun : un < b) (htop : top < xn) : (top * b + un) / xn < b :=
  Nat.div_lt_of_lt_mul (Nat.mul_comm .. ▸ (mul_add_lt_mul_iff hun).mpr htop)

/-- A digit's loop leaves the exact digit of a partial dividend below the divisor (42_div.md R142, R144). -/
theorem divDigit_q (hx : NormalizedHalves b xhi xlo) (hun : un < b) (htop : top < xhi * b + xlo) :
    (divDigit b xhi xlo top un).q = (top * b + un) / (xhi * b + xlo) := by
  have htrial := Nat.div_add_mod' top xhi
  have hmod := Nat.mod_lt top hx.xhi_pos
  have hxhi := hx.xhi_lt
  have htop_bit := hx.top_bit
  refine correctDigit_q hx rfl (digit_lt hun htop)
    ⟨by omega, le_trialDigit hx.xhi_pos hun, trialDigit_le hx htop, by omega⟩ ?_
  rw [loopFuel]
  omega

end Digit

/-- Of an exact digit the partial remainder is the remainder: the reduction changes nothing (42_div.md R143, R145). -/
theorem partialRemainder_div {w b top un xn : Nat} (hpos : 0 < xn) (hxn : xn ≤ 2 ^ w) :
    partialRemainder w b top un ((top * b + un) / xn) xn = (top * b + un) % xn := by
  have hexact : ((top * b + un : Nat) - ((top * b + un) / xn * xn : Nat) : Int) = ((top * b + un) % xn : Nat) := by
    have := Nat.div_add_mod' (top * b + un) xn
    omega
  rw [partialRemainder, hexact, ← Int.natCast_mod, Int.toNat_natCast]
  exact Nat.mod_eq_of_lt ((Nat.mod_lt _ hpos).trans_le hxn)

/-- One digit of Algorithm D is exact, and so is the partial remainder it leaves (42_div.md R142 to R145). -/
theorem divDigit_exact {w b xhi xlo xn top un : Nat} (hx : NormalizedHalves b xhi xlo) (hsplit : xn = xhi * b + xlo)
    (hxn : xn ≤ 2 ^ w) (hun : un < b) (htop : top < xn) :
    (divDigit b xhi xlo top un).q = (top * b + un) / xn ∧
    partialRemainder w b top un (divDigit b xhi xlo top un).q xn = (top * b + un) % xn := by
  have hq : (divDigit b xhi xlo top un).q = (top * b + un) / xn := hsplit ▸ divDigit_q hx hun (hsplit ▸ htop)
  exact ⟨hq, hq ▸ partialRemainder_div (Nat.zero_lt_of_lt htop) hxn⟩

/-- Long division: two digits, each divided with the remainder before it. -/
theorem div_mod_two_digits {b xn : Nat} (hxn : 0 < xn) (t u : Nat) :
    (t * b + u) / xn = t / xn * b + (t % xn * b + u) / xn ∧ (t * b + u) % xn = (t % xn * b + u) % xn := by
  rw [Nat.div_mod_unique hxn]
  refine ⟨?_, Nat.mod_lt _ hxn⟩
  have h1 := Nat.div_add_mod t xn
  have h0 := Nat.div_add_mod (t % xn * b + u) xn
  linear_combination b * h1 + h0

/-! ### Algorithm D on a valid input -/

theorem divNormalize_halves {w x : Nat} (hw : 2 ^ (w / 2) * 2 ^ (w / 2) = 2 ^ w) (hi lo : Nat) (hx : x < 2 ^ w)
    (hx0 : x ≠ 0) : NormalizedHalves (2 ^ (w / 2)) (divNormalize w hi lo x).xhi (divNormalize w hi lo x).xlo where
  xlo_lt := divNormalize_xlo_lt ..
  xhi_lt := divNormalize_xhi_lt hi lo hx hx0 hw
  top_bit := le_two_mul_divNormalize_xhi hi lo hx hx0 hw

/-- The upper digit of the normalized dividend stays below the divisor. -/
theorem divNormalize_un32_lt_xn {w hi lo x : Nat} (hlo : lo < 2 ^ w) (hx : x < 2 ^ w) (h : hi < x) :
    (divNormalize w hi lo x).un32 < (divNormalize w hi lo x).xn := by
  have hx0 : x ≠ 0 := Nat.ne_zero_of_lt h
  rw [← mul_add_lt_mul_iff (divNormalize_un10_lt w hi lo x), divNormalize_dividend hi lo hx hx0 hlo h,
    divNormalize_xn hi lo hx hx0, Nat.mul_right_comm]
  exact Nat.mul_lt_mul_of_pos_right ((mul_add_lt_mul_iff hlo).mpr h) (Nat.two_pow_pos _)

theorem algorithmD_quo (w hi lo x : Nat) :
    (algorithmD w hi lo x).quo =
      ((algorithmD w hi lo x).first.q * 2 ^ (w / 2) + (algorithmD w hi lo x).second.q) % 2 ^ w := rfl

section Valid

variable {w hi lo x : Nat} (hw : 2 ^ (w / 2) * 2 ^ (w / 2) = 2 ^ w) (hlo : lo < 2 ^ w) (hx : x < 2 ^ w) (h : hi < x)

include hw hlo hx h

/-- Both digits are exact, with their partial remainders (42_div.md R143). -/
theorem algorithmD_digits :
    let n := divNormalize w hi lo x
    let d := algorithmD w hi lo x
    d.first.q = (n.un32 * 2 ^ (w / 2) + n.un1) / n.xn ∧ d.un21 = (n.un32 * 2 ^ (w / 2) + n.un1) % n.xn ∧
    d.second.q = (d.un21 * 2 ^ (w / 2) + n.un0) / n.xn ∧
    d.rem = ((d.un21 * 2 ^ (w / 2) + n.un0) % n.xn) >>> n.s := by
  intro n d
  have hx0 := Nat.ne_zero_of_lt h
  have hhalves : NormalizedHalves (2 ^ (w / 2)) n.xhi n.xlo := divNormalize_halves hw hi lo hx hx0
  have hxn : n.xn ≤ 2 ^ w := (divNormalize_xn_lt hi lo hx hx0).le
  have htop : n.un32 < n.xn := divNormalize_un32_lt_xn hlo hx h
  obtain ⟨hq1, hun21⟩ := divDigit_exact hhalves (divNormalize_xn_split ..) hxn (divNormalize_un1_lt hw hi lo x) htop
  have hlt : d.un21 < n.xn := hun21.trans_lt (Nat.mod_lt _ (Nat.zero_lt_of_lt htop))
  obtain ⟨hq0, hrem⟩ := divDigit_exact hhalves (divNormalize_xn_split ..) hxn (divNormalize_un0_lt w hi lo x) hlt
  exact ⟨hq1, hun21, hq0, congrArg (· >>> n.s) hrem⟩

/-- The pieces of the normalized dividend make up z * 2^s (42_div.md R141). -/
theorem divNormalize_pieces :
    ((divNormalize w hi lo x).un32 * 2 ^ (w / 2) + (divNormalize w hi lo x).un1) * 2 ^ (w / 2) +
      (divNormalize w hi lo x).un0 = (hi * 2 ^ w + lo) * 2 ^ (divNormalize w hi lo x).s := by
  rw [← divNormalize_dividend hi lo hx (Nat.ne_zero_of_lt h) hlo h, divNormalize_un10_split, ← hw]
  ring

/-- The two digits make up the quotient, and un-normalizing the last partial remainder gives the remainder (42_div.md R145,
R146). -/
theorem algorithmD_answer :
    (algorithmD w hi lo x).quo = (hi * 2 ^ w + lo) / x ∧ (algorithmD w hi lo x).rem = (hi * 2 ^ w + lo) % x := by
  have hxn := divNormalize_xn hi lo hx (Nat.ne_zero_of_lt h)
  have hpos := Nat.two_pow_pos (divNormalize w hi lo x).s
  obtain ⟨hq1, hun21, hq0, hrem⟩ := algorithmD_digits hw hlo hx h
  obtain ⟨hquo, hmod⟩ := div_mod_two_digits (Nat.zero_lt_of_lt (divNormalize_un32_lt_xn hlo hx h))
    ((divNormalize w hi lo x).un32 * 2 ^ (w / 2) + (divNormalize w hi lo x).un1) (divNormalize w hi lo x).un0
  rw [divNormalize_pieces hw hlo hx h, ← hun21, hxn, Nat.mul_div_mul_right _ _ hpos, ← hxn] at hquo
  rw [divNormalize_pieces hw hlo hx h, ← hun21, hxn, Nat.mul_mod_mul_right, ← hxn] at hmod
  constructor
  · rw [algorithmD_quo, hq1, hq0, ← hquo]
    exact Nat.mod_eq_of_lt (quotient_lt hlo h)
  · rw [hrem, ← hmod, Nat.shiftRight_eq_div_pow, Nat.mul_div_cancel _ hpos]

end Valid

/-- Settles O24: `algorithmD_digits` and `algorithmD_answer`, beside the core's answer on a valid input. -/
theorem algorithmDEqualsDivCore : Obligations.AlgorithmDEqualsDivCore := by
  intro width hi lo x hx0 h w b d
  have hw : b * b = 2 ^ w := two_pow_half_mul_self width
  have htop : d.normal.un32 < d.normal.xn := divNormalize_un32_lt_xn lo.isLt x.isLt h
  have hxn := Nat.zero_lt_of_lt htop
  obtain ⟨hq1, hun21, hq0 : d.second.q = (d.un21 * b + d.normal.un0) / d.normal.xn, -⟩ :=
    algorithmD_digits hw lo.isLt x.isLt h
  obtain ⟨hquo, hrem⟩ := algorithmD_answer hw lo.isLt x.isLt h
  have hlt : d.un21 < d.normal.xn := hun21.trans_lt (Nat.mod_lt _ hxn)
  refine ⟨hq1.trans_lt (digit_lt (divNormalize_un1_lt hw ..) htop),
    hq0.trans_lt (digit_lt (divNormalize_un0_lt ..) hlt), ?_, hlt, ?_, ?_, ?_, ?_, ?_⟩
  · rw [hq1, hun21]
    exact (Nat.div_add_mod' _ _).symm
  · rw [hq0]
    exact Nat.div_mul_le_self _ _
  · rw [hq0, ← Nat.mod_eq_sub_div_mul]
    exact Nat.mod_lt _ hxn
  · rw [divCore_valid h, ← hquo, ← hrem]
  · exact hquo.trans_lt (quotient_lt lo.isLt h)
  · exact hrem.trans_lt ((Nat.mod_lt _ (Nat.zero_lt_of_lt h)).trans x.isLt)

/-! ### The worked traces -/

/-- Settles O26: fixed inputs, each conjunct by evaluating the model on them. -/
theorem algorithmDWorkedTraces : Obligations.AlgorithmDWorkedTraces :=
  ⟨by decide, by decide, by decide⟩

end Sys2Proof.Machine
end

section
/-!
PROOFS. Faults (spec/60_exceptions.md R164, R165, R168, R177): which instructions raise one, what recording it changes, in which
order a request's faults are checked, and that an idle block keeps its latch.
-/

namespace Sys2Proof.Machine

open Sys2Proof.Safety

/-! ### Which instruction raises a fault, and what it writes -/

/-- An answer that carries a fault is a divide's, its fault is one of two, and the state is what `raise` leaves. -/
theorem exec_fault {i : Instr} {s t : State} {f : FaultCode} (h : exec i s = .next t)
    (hres : t.response = some (.fault f)) :
    t = raise f (opcodeByte i.family i.widthSel) s ∧ i.family = .div ∧ (f = .divByZero ∨ f = .quotientOverflow) := by
  obtain ⟨t', ht', -, -, -, -, hlatch, -⟩ := exec_outcome i s
  obtain rfl : t' = t := by simpa [ht'] using h
  obtain ⟨_, _, hwords, -⟩ | ⟨f', rfl, hdiv, hf'⟩ := hlatch
  · simp [hwords] at hres
  · obtain rfl : f' = f := by simpa using hres
    exact ⟨rfl, hdiv, hf'.imp_right And.left⟩

/-- An ADD, SUB or MUL answers with result words and changes nothing but the request in flight and the response. -/
theorem exec_of_ne_div {i : Instr} (hfam : i.family ≠ .div) (s : State) :
    ∃ r0 r1 : Word, exec i s = .next { s with inflight := none, response := some (.result r0 r1) } := by
  obtain ⟨_, ht, -, -, -, -, -, -, hframe⟩ := exec_outcome i s
  obtain ⟨r0, r1, rfl⟩ := hframe hfam
  exact ⟨r0, r1, ht⟩

/-- Settles O55: `exec_of_ne_div` and `exec_fault`. -/
theorem addSubMulNeverFault : Obligations.AddSubMulNeverFault :=
  ⟨fun _ s hfam => exec_of_ne_div hfam s, fun _ _ _ _ h hres => (exec_fault h hres).2⟩

/-- Settles O49: by `exec_fault` the state is what `raise` leaves, in an unfaulted block and in a faulted one. -/
theorem faultRecordingDoesNothingElse : Obligations.FaultRecordingDoesNothingElse := by
  refine ⟨fun i s t f h hres => ?_, rfl, rfl, rfl, rfl⟩
  obtain ⟨ht, -, hf⟩ := exec_fault h hres
  have hcode : f.code ≠ 0 := by
    rcases hf with rfl | rfl <;> decide
  exact ⟨fun hflt => ht.trans (raise_unfaulted hflt ..), fun hflt => ht.trans (raise_faulted hflt ..), rfl, hcode, rfl⟩

/-! ### Priority -/

/-- The outcome goes on and delivers a response whose FAULT field is `code`. -/
def AnswersFault (code : BitVec 2) (o : Host.Outcome State Fault Refusal) : Prop :=
  ∃ t answer, o = .next t ∧ t.response = some answer ∧ faultField answer = code

theorem raise_answersFault (f : FaultCode) (op : Byte) (s : State) : AnswersFault f.code (.next (raise f op s)) :=
  ⟨_, _, rfl, raise_response f op s, rfl⟩

/-- Result words come with FAULT = 0. -/
theorem answersFault_zero {t : State} {r0 r1 : Word} (h : t.response = some (.result r0 r1)) :
    AnswersFault 0 (.next t) :=
  ⟨t, _, rfl, h, rfl⟩

/-- The test order of a divide (42_div.md R130, R137): zero divisor first, then an overflow under the check. -/
theorem divAt_answersFault (w : Nat) (op : Byte) (hi lo x : Word) (s : State) :
    AnswersFault
      (if low w x = 0 then FaultCode.code .divByZero
      else if low w x ≤ low w hi ∧ s.cfg.divOvfCheck = true then FaultCode.code .quotientOverflow
      else 0)
      (divAt w op hi lo x s) := by
  obtain ⟨hx, hans⟩ | ⟨hx, hle, hans⟩ | ⟨hx, hlt, hans⟩ := divAt_cases w op hi lo x s
  · rw [hans, if_pos hx]
    exact raise_answersFault .divByZero op s
  · rw [hans, if_neg hx, quotientOverflow]
    by_cases hcheck : s.cfg.divOvfCheck = true
    · rw [if_pos hcheck, if_pos ⟨hle, hcheck⟩]
      exact raise_answersFault .quotientOverflow op s
    · rw [if_neg hcheck, if_neg fun h => hcheck h.2]
      exact answersFault_zero (deliverDraws_response w s)
  · rw [hans, if_neg hx, if_neg fun h => Nat.not_le.mpr hlt h.1]
    exact answersFault_zero (answered_response s _ _)

/-- The fault of an instruction on the words `a` and `c` of its ports A and C: none but a divide's, in the order of R168. -/
theorem exec_answersFault {i : Instr} {a b c : Word} (hops : i.operands = (a, b, c)) (s : State) :
    AnswersFault
      (let w := resolveWidth s.cfg i.widthSel
      if i.family = .div ∧ low w c = 0 then FaultCode.code .divByZero
      else if i.family = .div ∧ low w c ≤ low w a ∧ s.cfg.divOvfCheck = true then FaultCode.code .quotientOverflow
      else 0)
      (exec i s) := by
  by_cases hfam : i.family = .div
  · have hi : i = buildInstr .div i.widthSel a b c := by simpa [hfam, hops] using (buildInstr_fields i).symm
    rw [hi, exec_div]
    simpa using divAt_answersFault (resolveWidth s.cfg i.widthSel) (opcodeByte .div i.widthSel) a b c s
  · obtain ⟨_, _, hans⟩ := exec_of_ne_div hfam s
    simp only [hans, hfam, false_and, if_false]
    exact answersFault_zero rfl

/-- Settles O43: ILLEGAL_OP where the request does not decode, else `exec_answersFault` on the operands it decodes to. -/
theorem faultPriority : Obligations.FaultPriority := by
  intro s r hreq hflt hreset
  rw [step_request hreq hreset hflt]
  cases hdec : decodeRequest r with
  | error _ => exact raise_answersFault .illegalOp r.op (beginStep s)
  | ok i => exact exec_answersFault (decodeRequest_ok hdec).2 (beginStep s)

/-! ### The idle block -/

/-- With nothing in flight and nothing presented, a step only takes the last response off the ports. -/
theorem step_nothing_presented {s : State} (hinflight : s.inflight = none) (hrequests : s.requests = [])
    (hreset : resetAsserted s = false) : step s = .next (beginStep s) := by
  have hports : (beginStep s).requests = [] := hrequests
  rw [step_idle hinflight hreset, idleOrAccept, hports]

/-- Settles O38: the step is `beginStep`, which writes neither the latch nor what the statement lists. -/
theorem idleBlockHoldsItsLatch : Obligations.IdleBlockHoldsItsLatch := fun s hinflight hrequests hreset =>
  ⟨beginStep s, step_nothing_presented hinflight hrequests hreset, rfl, rfl, statusWord_congr rfl rfl, hinflight, hrequests,
    rfl, rfl⟩

end Sys2Proof.Machine
end

section
/-!
PROOFS. The state right after reset (spec/70_reset_and_hazards.md R192): what each piece of it holds, at every configuration.
-/

namespace Sys2Proof.Machine

/-- STATUS reads the latch only, so after reset it reads the same at every configuration: FLT NONE, FOP 0x00. -/
@[simp] theorem statusWord_resetWith (cfg : Config) : statusWord (State.resetWith cfg) = 0x0000#16 :=
  calc statusWord (State.resetWith cfg)
    _ = statusWord State.reset := statusWord_congr rfl rfl
    _ = 0x0000#16 := by decide

/-- Settles O59: `statusWord_resetWith` for STATUS; every other piece is a field of `State.resetWith`. -/
theorem resetValues : Obligations.ResetValues := by
  unfold Obligations.ResetValues
  intro specified
  have hspec : ∀ cfg : Config, specified (State.resetWith cfg) := fun cfg =>
    ⟨rfl, rfl, rfl, statusWord_resetWith cfg, rfl, rfl⟩
  exact ⟨fun cfg => ⟨hspec cfg, rfl⟩, hspec Config.initial⟩

end Sys2Proof.Machine
end

section
/-!
PROOFS. Packing, encoding and decoding (spec/30_encoding.md R60 to R64, R69): a packed request and its fields determine each
other, so encoding and decoding are inverse; the fields of a packed response; and which bytes are reserved.
-/

namespace Sys2Proof

open Sys2Proof.Machine Sys2Proof.Safety

/-! ### Packed requests -/

/-- The fields of a packed request read back (30_encoding.md R60). -/
@[simp] theorem unpackRequest_packRequest (r : Request) : unpackRequest (packRequest r) = r := by
  have hop : (packRequest r).extractLsb' 0 8 = r.op := BitVec.extractLsb'_append_eq_right
  have ha : (packRequest r).extractLsb' 8 64 = r.a :=
    (BitVec.extractLsb'_append_eq_of_le (by decide)).trans BitVec.extractLsb'_append_eq_right
  have hb : (packRequest r).extractLsb' 72 64 = r.b :=
    (BitVec.extractLsb'_append_eq_of_le (by decide)).trans <|
      (BitVec.extractLsb'_append_eq_of_le (by decide)).trans BitVec.extractLsb'_append_eq_right
  have hc : (packRequest r).extractLsb' 136 64 = r.c :=
    (BitVec.extractLsb'_append_eq_of_le (by decide)).trans <|
      (BitVec.extractLsb'_append_eq_of_le (by decide)).trans BitVec.extractLsb'_append_eq_left
  simp only [unpackRequest, hop, ha, hb, hc]

/-- The four fields are all 200 bits of a packed request (30_encoding.md R60). -/
@[simp] theorem packRequest_unpackRequest (w : BitVec 200) : packRequest (unpackRequest w) = w := by
  have hcb : w.extractLsb' 136 64 ++ w.extractLsb' 72 64 = w.extractLsb' 72 (64 + 64) :=
    BitVec.extractLsb'_append_extractLsb'_eq_extractLsb' rfl
  have hcba : w.extractLsb' 72 (64 + 64) ++ w.extractLsb' 8 64 = w.extractLsb' 8 (64 + 64 + 64) :=
    BitVec.extractLsb'_append_extractLsb'_eq_extractLsb' rfl
  have hall : w.extractLsb' 8 (64 + 64 + 64) ++ w.extractLsb' 0 8 = w.extractLsb' 0 (64 + 64 + 64 + 8) :=
    BitVec.extractLsb'_append_extractLsb'_eq_extractLsb' rfl
  simp only [packRequest, unpackRequest, hcb, hcba, hall]
  exact BitVec.extractLsb'_eq_self

/-! ### Encoding and decoding -/

@[simp] theorem decodeRequest_encodeRequest (i : Instr) : decodeRequest (encodeRequest i) = .ok i := by
  simp only [decodeRequest, encodeRequest, decodeOpcode_opcodeByte, buildInstr_fields]

theorem encodeRequest_of_decodeRequest {r : Request} {i : Instr} (h : decodeRequest r = .ok i) : encodeRequest i = r := by
  obtain ⟨hop, hoperands⟩ := decodeRequest_ok h
  simp only [encodeRequest, ← hop, hoperands]

/-- Settles O27: requests decode and encode both ways, and packing loses no field. -/
theorem decodeEncodeAgree : Obligations.DecodeEncodeAgree := by
  refine ⟨fun i => ?_, fun w i h => ?_, unpackRequest_packRequest⟩
  · rw [decode, encode, unpackRequest_packRequest, decodeRequest_encodeRequest]
  · rw [encode, encodeRequest_of_decodeRequest h, packRequest_unpackRequest]

/-! ### Packed responses -/

/-- Settles O33: the fields of `faultField ++ R1 ++ R0`. -/
theorem responsePackingFields : Obligations.ResponsePackingFields := by
  refine ⟨fun r0 r1 => ⟨_, rfl, BitVec.extractLsb'_append_eq_right, ?_, ?_⟩, fun f => ⟨rfl, rfl, rfl⟩⟩
  · exact (BitVec.extractLsb'_append_eq_of_le (by decide)).trans BitVec.extractLsb'_append_eq_right
  · exact (BitVec.extractLsb'_append_eq_of_le (by decide)).trans BitVec.extractLsb'_append_eq_left

/-! ### Reserved bytes -/

theorem decodeWidthSel_eq_none_iff (wsel : BitVec 2) : decodeWidthSel wsel = none ↔ wsel = 0b11#2 := by
  revert wsel
  decide

/-- A byte is reserved by its width select or by its reserved bits (30_encoding.md R69). -/
theorem decodeOpcode_error_iff (op : Byte) :
    (∃ e, decodeOpcode op = .error e) ↔ (op.extractLsb' 2 2 = 0b11#2 ∨ op.extractLsb' 4 4 ≠ 0b0000#4) := by
  rw [← decodeWidthSel_eq_none_iff]
  unfold decodeOpcode
  split
  · next hrsv => simp [hrsv]
  · next hrsv => cases decodeWidthSel (op.extractLsb' 2 2) <;> simp [hrsv]

theorem decodeRequest_error_of_decodeOpcode {r : Request} {e : DecodeError} (h : decodeOpcode r.op = .error e) :
    decodeRequest r = .error e := by
  simp only [decodeRequest, h]

end Sys2Proof

namespace Sys2Proof.Machine

open Sys2Proof.Safety

/-- A request that does not decode is answered by recording ILLEGAL_OP (60_exceptions.md R162). -/
theorem step_undecodable {s : State} {r : Request} {e : DecodeError} (hreq : s.inflight = some r)
    (hreset : resetAsserted s = false) (hflt : s.flt = .none) (hdec : decodeRequest r = .error e) :
    step s = .next (recorded (beginStep s) .illegalOp r.op) := by
  rw [step_request hreq hreset hflt, hdec, ← raise_unfaulted (s := beginStep s) hflt]

/-- Settles O29: `decodeOpcode_error_iff`, the count by evaluation, and `step_undecodable`. -/
theorem reservedOpcodeRaisesIllegalOp : Obligations.ReservedOpcodeRaisesIllegalOp := by
  refine ⟨decodeOpcode_error_iff, by decide +kernel, fun s r hreq hreset hflt hreserved => ?_⟩
  obtain ⟨e, he⟩ := (decodeOpcode_error_iff r.op).mpr hreserved
  exact step_undecodable hreq hreset hflt (decodeRequest_error_of_decodeOpcode he)

end Sys2Proof.Machine
end

section
/-!
PROOFS. One step (spec/20_memory.md R44, spec/60_exceptions.md R165, R166, R178, spec/70_reset_and_hazards.md R190, R191,
R197): what a step does at reset, in a faulted block, with nothing in flight and with a request in flight, and what every step
keeps.
-/

namespace Sys2Proof.Machine

open Sys2Proof.Safety

/-! ### A request in flight -/

/-- A request that decodes is executed (60_exceptions.md R178). -/
theorem step_decodable {s : State} {r : Request} {i : Instr} (hreq : s.inflight = some r)
    (hreset : resetAsserted s = false) (hflt : s.flt = .none) (hdec : decodeRequest r = .ok i) :
    step s = exec i (beginStep s) := by
  rw [step_request hreq hreset hflt, hdec]

/-- Settles O36: `step_decodable`, with `beginStep` written out. -/
theorem stepRunsDecodedInstruction : Obligations.StepRunsDecodedInstruction := fun _ _ _ => step_decodable

/-- Settles O54: every outcome of `exec_outcome` carries result words or a fault. -/
theorem everyInstructionAnswers : Obligations.EveryInstructionAnswers := by
  intro i s
  obtain ⟨t, ht, hinflight, -, -, -, hanswer, -⟩ := exec_outcome i s
  obtain ⟨r0, r1, hwords, -⟩ | ⟨f, rfl, -⟩ := hanswer
  · exact ⟨t, _, ht, hwords, hinflight⟩
  · exact ⟨_, _, ht, rfl, rfl⟩

/-- Settles O41: ILLEGAL_OP answers a request that does not decode, and its instruction answers any other. -/
theorem acceptedRequestIsAnswered : Obligations.AcceptedRequestIsAnswered := by
  intro s r hreq hflt hreset
  cases hdec : decodeRequest r with
  | error e => exact ⟨_, _, step_undecodable hreq hreset hflt hdec, rfl, rfl⟩
  | ok i => exact step_decodable hreq hreset hflt hdec ▸ everyInstructionAnswers i (beginStep s)

/-- An instruction that goes on leaves nothing in flight, delivers a response, and keeps what the host drives. -/
theorem exec_frame {i : Instr} {s t : State} (h : exec i s = .next t) :
    t.inflight = none ∧ t.response ≠ none ∧ t.cfg = s.cfg ∧ t.requests = s.requests ∧ t.resetIn = s.resetIn := by
  obtain ⟨t', ht', hinflight, hcfg, hrequests, hresetIn, hanswer, -⟩ := exec_outcome i s
  obtain rfl : t' = t := by simpa [ht'] using h
  refine ⟨hinflight, ?_, hcfg, hrequests, hresetIn⟩
  obtain ⟨_, _, hwords, -⟩ | ⟨_, rfl, -⟩ := hanswer
  · simp [hwords]
  · simp

/-- Settles O42: of the cases of `step_outcome` a request in flight leaves the reset and the two answers. -/
theorem nothingIsAcceptedWhileARequestIsInFlight : Obligations.NothingIsAcceptedWhileARequestIsInFlight := by
  intro s t r hreq h
  obtain ⟨hreset, rfl⟩ | ⟨-, hnone, -⟩ | ⟨-, hnone, -⟩ | ⟨hreset, -, _, -, ⟨i, -, hexec⟩ | ⟨_, -, rfl⟩⟩ := step_outcome h
  · simp [hreset]
  · simp [hreq] at hnone
  · simp [hreq] at hnone
  · obtain ⟨hinflight, hresponse, -, hrequests, -⟩ := exec_frame hexec
    exact ⟨hrequests, hinflight, by simp [hresponse, hreset]⟩
  · simp [hreset]

/-! ### A presented request -/

/-- Settles O37: the step is `idleOrAccept` in an unfaulted block (20_memory.md R44). -/
theorem stepAcceptsPresentedRequest : Obligations.StepAcceptsPresentedRequest := by
  intro s r rest hinflight hrequests hreset hflt
  have hports : (beginStep s).requests = r :: rest := hrequests
  rw [step_idle hinflight hreset, idleOrAccept, hports]
  exact if_neg (by simpa using (isFaulted_eq_false_iff (beginStep s)).mpr hflt)

/-- A run of the core begins with a step. -/
theorem core_run_succ {s t : State} (h : step s = .next t) (k : Nat) :
    Sys2Proof.core.run (k + 1) s = Sys2Proof.core.run k t := by
  have hcore : Sys2Proof.core.step s = .next t := h
  simp only [Host.Core.run, hcore]

theorem run_one (M : Host.Core) (s : M.State) : M.run 1 s = M.step s := by
  simp only [Host.Core.run]
  cases M.step s <;> rfl

theorem core_run_two {s t : State} (h : step s = .next t) : Sys2Proof.core.run 2 s = step t :=
  (core_run_succ h 1).trans (run_one Sys2Proof.core t)

/-- Reset levels that are released for two steps. -/
theorem resetAsserted_of_take_two {s : State} (h : s.resetIn.take 2 ⊆ [false]) :
    resetAsserted s = false ∧ s.resetIn.tail.headD false = false := by
  unfold resetAsserted
  match hlevels : s.resetIn with
  | [] => simp
  | [_] => simpa [hlevels] using h
  | _ :: _ :: _ => simpa [hlevels] using h

/-- Settles O40: `stepAcceptsPresentedRequest`, then the step of the request in flight. -/
theorem transactionTakesTwoSteps : Obligations.TransactionTakesTwoSteps := by
  intro s r rest hinflight hrequests hflt hlevels sampled
  obtain ⟨hreset, hreset'⟩ := resetAsserted_of_take_two hlevels
  have haccept := stepAcceptsPresentedRequest s r rest hinflight hrequests hreset hflt
  have hsampled : beginStep
      { s with inflight := some r, requests := rest, response := none, resetIn := s.resetIn.tail } = sampled := by
    simp [beginStep, sampled, ← List.drop_one]
  rw [core_run_two haccept, ← hsampled]
  exact ⟨fun i hdec => step_decodable rfl hreset' hflt hdec, fun e hdec => step_undecodable rfl hreset' hflt hdec⟩

/-! ### A faulted block -/

/-- Until reset a faulted block stops at a request (60_exceptions.md R166). -/
theorem step_faulted_request {s : State} (hflt : s.flt ≠ .none) (hreset : resetAsserted s = false)
    (hreq : s.requests ≠ [] ∨ s.inflight ≠ none) : step s = .fault .blockFaulted := by
  cases hinflight : s.inflight with
  | some r => simp [step, hreset, hinflight, isFaulted, hflt, holdFaulted]
  | none =>
    obtain ⟨r, rest, hrequests⟩ := List.exists_cons_of_ne_nil (hreq.resolve_right fun h => h hinflight)
    rw [step_idle hinflight hreset]
    simp [idleOrAccept, hrequests, isFaulted, hflt, holdFaulted]

/-- A step of a faulted block that goes on is reset, or finds nothing at the block (60_exceptions.md R166, R177). -/
theorem step_faulted_outcome {s t : State} (hflt : s.flt ≠ .none) (h : step s = .next t) :
    (resetAsserted s = true ∧ t = applyReset s) ∨
    (resetAsserted s = false ∧ s.inflight = none ∧ s.requests = [] ∧ t = beginStep s) := by
  obtain hreset | hidle | ⟨-, -, hnone, -⟩ | ⟨-, hnone, -⟩ := step_outcome h
  · exact .inl hreset
  · exact .inr hidle
  · exact absurd hnone hflt
  · exact absurd hnone hflt

/-- Settles O39: `step_faulted_request`, and of the two steps of a faulted block neither accepts or answers. -/
theorem faultedBlockAcceptsNothing : Obligations.FaultedBlockAcceptsNothing := by
  intro s hflt
  refine ⟨step_faulted_request hflt, fun t h => ?_, statusWord_flt s, statusWord_fop s⟩
  obtain ⟨-, rfl⟩ | ⟨-, hinflight, -, rfl⟩ := step_faulted_outcome hflt h
  · exact ⟨rfl, rfl, rfl⟩
  · exact ⟨rfl, hinflight, rfl⟩

/-! ### Reset -/

theorem statusWord_applyReset (s : State) : statusWord (applyReset s) = 0x0000#16 :=
  (statusWord_congr rfl rfl).trans (statusWord_resetWith s.cfg)

/-- Settles O58: `applyReset` written out, and the steps of a faulted block. -/
theorem resetInputClearsLatchAndDropsRequest : Obligations.ResetInputClearsLatchAndDropsRequest := by
  refine ⟨fun s hreset => ⟨_, step_reset hreset, rfl, statusWord_applyReset s⟩, fun s t hflt h hnone => ?_⟩
  obtain ⟨hreset, -⟩ | ⟨-, -, -, rfl⟩ := step_faulted_outcome hflt h
  · exact hreset
  · exact absurd hnone hflt

/-- Settles O60: after `applyReset` the block is idle and unfaulted, so it idles or accepts. -/
theorem releasedResetAcceptsNextRequest : Obligations.ReleasedResetAcceptsNextRequest := by
  intro s t hreset h hreleased
  obtain rfl : applyReset s = t := by simpa [step_reset hreset] using h
  exact ⟨rfl, rfl, fun hrequests => step_nothing_presented rfl hrequests hreleased,
    fun r rest hrequests => stepAcceptsPresentedRequest _ r rest rfl hrequests hreleased rfl⟩

/-! ### What every step keeps -/

/-- Settles O53: no case of `step_outcome` writes the configuration. -/
theorem configurationNeverChanges : Obligations.ConfigurationNeverChanges := by
  intro s t h
  obtain ⟨-, rfl⟩ | ⟨-, -, -, rfl⟩ | ⟨-, -, -, _, _, -, rfl⟩ | ⟨-, -, _, -, ⟨i, -, hexec⟩ | ⟨_, -, rfl⟩⟩ := step_outcome h
  · rfl
  · rfl
  · rfl
  · obtain ⟨-, -, hcfg, -⟩ := exec_frame hexec
    exact hcfg
  · rfl

/-- Nothing in flight and no response: the invariant asks for FOP = 0x00 in an unfaulted block only. -/
theorem inv_of_idle {s : State} (hfop : s.flt = .none → s.fop = 0x00#8) (hinflight : s.inflight = none)
    (hresponse : s.response = none) : Inv s :=
  ⟨hfop, by simp [hinflight], by simp [hinflight], by simp [hresponse], by simp [hresponse]⟩

/-- An accepted request in an unfaulted block, with the ports clear. -/
theorem inv_of_accepted {s : State} (hflt : s.flt = .none) (hfop : s.fop = 0x00#8) (hresponse : s.response = none) :
    Inv s := by
  constructor <;> simp [hflt, hfop, hresponse]

/-- Result words leave an unfaulted block unfaulted. -/
theorem inv_of_result {s : State} {r0 r1 : Word} (hflt : s.flt = .none) (hfop : s.fop = 0x00#8)
    (hinflight : s.inflight = none) (hresponse : s.response = some (.result r0 r1)) : Inv s := by
  constructor <;> simp [hflt, hfop, hinflight, hresponse]

/-- A recorded fault stands in the latch (60_exceptions.md R165). -/
theorem inv_recorded (s : State) {f : FaultCode} (hf : f ≠ .none) (op : Byte) : Inv (recorded s f op) := by
  constructor <;> simp [hf]

/-- An instruction in an unfaulted block answers with result words or records its fault. -/
theorem inv_exec {i : Instr} {s t : State} (hflt : s.flt = .none) (hfop : s.fop = 0x00#8) (h : exec i s = .next t) :
    Inv t := by
  obtain ⟨r0, r1, hwords, hflt', hfop'⟩ | ⟨f, hf, rfl⟩ := exec_latch h
  · obtain ⟨hinflight, -⟩ := exec_frame h
    exact inv_of_result (hflt'.trans hflt) (hfop'.trans hfop) hinflight hwords
  · rw [raise_unfaulted hflt]
    exact inv_recorded s hf _

/-- Settles O51: each case of `step_outcome` leaves one of the states above. -/
theorem everyStepKeepsTheInvariant : Obligations.EveryStepKeepsTheInvariant := by
  intro s t hinv h
  obtain ⟨-, rfl⟩ | ⟨-, hidle, -, rfl⟩ | ⟨-, -, hflt, _, _, -, rfl⟩ | ⟨-, hflt, _, -, hanswer⟩ := step_outcome h
  · exact inv_of_idle (fun _ => rfl) rfl rfl
  · exact inv_of_idle hinv.fop_zero hidle rfl
  · exact inv_of_accepted hflt (hinv.fop_zero hflt) rfl
  · obtain ⟨i, -, hexec⟩ | ⟨_, -, rfl⟩ := hanswer
    · exact inv_exec (s := beginStep s) hflt (hinv.fop_zero hflt) hexec
    · rw [raise_unfaulted (s := beginStep s) hflt]
      exact inv_recorded _ (by decide) _

/-- Settles O52: the state after reset is idle with FOP = 0x00. -/
theorem invariantHoldsAtReset : Obligations.InvariantHoldsAtReset :=
  have hinv (cfg : Config) : Inv (State.resetWith cfg) := inv_of_idle (fun _ => rfl) rfl rfl
  ⟨hinv, hinv Config.initial⟩

end Sys2Proof.Machine
end

section
/-!
PROOFS. Datapaths and round trips (spec/40_addsub.md R85, R95, spec/41_mul.md R114, R116, spec/42_div.md R138): the adder and
the subtractor of two halves, the direct multiplier and divider, and a product divided by one of its factors.
-/

namespace Sys2Proof.Machine

open Sys2Proof.Safety

/-! ### Two halves -/

/-- A word as its two halves. -/
theorem toNat_eq_halves (x : Word) :
    x.toNat = (x.extractLsb' 32 32).toNat * 2 ^ 32 + (x.extractLsb' 0 32).toNat := by
  have := x.isLt
  simp only [BitVec.extractLsb'_toNat, Nat.shiftRight_eq_div_pow]
  omega

/-- Two halves and a bit out of the upper one are a word and a bit of the same values. -/
theorem append_halves_eq {high low : BitVec 32 × BitVec 32} {core : Word × Word}
    (hfst : high.1.toNat * 2 ^ 32 + low.1.toNat = core.1.toNat) (hsnd : high.2.toNat = core.2.toNat) :
    (high.1 ++ low.1, high.2.setWidth 64) = core := by
  refine Prod.ext (BitVec.eq_of_toNat_eq ?_) (BitVec.eq_of_toNat_eq ?_)
  · rw [← hfst, BitVec.toNat_append, ← Nat.shiftLeft_add_eq_or_of_lt low.1.isLt, Nat.shiftLeft_eq]
  · rw [← hsnd, BitVec.toNat_setWidth_of_le (by decide)]

/-- Exact sums of the halves, a carry between them, make up the exact sum of the words. -/
theorem add_halves {xh xl yh yl b lo mid hi out v c : Nat} (hlo : mid * 2 ^ 32 + lo = xl + yl + b)
    (hhi : out * 2 ^ 32 + hi = xh + yh + mid) (hv : c * 2 ^ 64 + v = xh * 2 ^ 32 + xl + (yh * 2 ^ 32 + yl) + b)
    (hlo' : lo < 2 ^ 32) (hhi' : hi < 2 ^ 32) (hv' : v < 2 ^ 64) : hi * 2 ^ 32 + lo = v ∧ out = c := by
  omega

/-- Exact differences of the halves, a borrow between them, make up the exact difference of the words. -/
theorem sub_halves {xh xl yh yl b lo mid hi out v c : Nat} (hlo : lo + yl + b = xl + mid * 2 ^ 32)
    (hhi : hi + yh + mid = xh + out * 2 ^ 32) (hv : v + (yh * 2 ^ 32 + yl) + b = xh * 2 ^ 32 + xl + c * 2 ^ 64)
    (hlo' : lo < 2 ^ 32) (hhi' : hi < 2 ^ 32) (hv' : v < 2 ^ 64) : hi * 2 ^ 32 + lo = v ∧ out = c := by
  omega

/-- A carry of 0 or 1 is the word of a bit, and so is its low half. -/
theorem exists_bit_of_carry {carry : Word} (h : carry = 0 ∨ carry = 1) :
    ∃ b : Bool, carry = (BitVec.ofBool b).setWidth 64 ∧ carry.extractLsb' 0 32 = (BitVec.ofBool b).setWidth 32 := by
  obtain rfl | rfl := h
  · exact ⟨false, rfl, rfl⟩
  · exact ⟨true, rfl, rfl⟩

/-- The adder of two halves gives the exact sum, and so does the core (40_addsub.md R81, R85). -/
theorem addDouble_eq_addCore (x y : Word) {carry : Word} (h : carry = 0 ∨ carry = 1) :
    addDouble x y carry = addCore x y carry := by
  obtain ⟨b, hcarry, hlow⟩ := exists_bit_of_carry h
  obtain ⟨b', hmid, hbit⟩ := exists_bit_of_toNat_le_one (by decide)
    (addCore_snd_le_one (by decide) (x.extractLsb' 0 32) (y.extractLsb' 0 32) b)
  have hcore := addCore_exact (by decide) x y b
  have hlo := addCore_exact (by decide) (x.extractLsb' 0 32) (y.extractLsb' 0 32) b
  have hhi := addCore_exact (by decide) (x.extractLsb' 32 32) (y.extractLsb' 32 32) b'
  rw [toNat_eq_halves x, toNat_eq_halves y] at hcore
  rw [hbit] at hlo
  rw [addDouble, hlow, hmid, hcarry]
  obtain ⟨hfst, hsnd⟩ := add_halves hlo hhi hcore (BitVec.isLt _) (BitVec.isLt _) (BitVec.isLt _)
  exact append_halves_eq hfst hsnd

/-- Settles O5: `addDouble_eq_addCore`, and R85's wide carry by evaluation. -/
theorem addDoubleEqualsAddCore : Obligations.AddDoubleEqualsAddCore :=
  ⟨fun x y _ => addDouble_eq_addCore x y, rfl, rfl⟩

/-- Settles O10: the subtractor of two halves gives the exact difference, and so does the core (40_addsub.md R91, R95). -/
theorem subDoubleEqualsSubCore : Obligations.SubDoubleEqualsSubCore := by
  intro x y borrow h
  obtain ⟨b, hborrow, hlow⟩ := exists_bit_of_carry h
  obtain ⟨b', hmid, hbit⟩ := exists_bit_of_toNat_le_one (by decide)
    (subCore_snd_le_one (by decide) (x.extractLsb' 0 32) (y.extractLsb' 0 32) b)
  have hcore := subCore_exact (by decide) x y b
  have hlo := subCore_exact (by decide) (x.extractLsb' 0 32) (y.extractLsb' 0 32) b
  have hhi := subCore_exact (by decide) (x.extractLsb' 32 32) (y.extractLsb' 32 32) b'
  rw [toNat_eq_halves x, toNat_eq_halves y] at hcore
  rw [hbit] at hlo
  rw [subDouble, hlow, hmid, hborrow]
  obtain ⟨hfst, hsnd⟩ := sub_halves hlo hhi hcore (BitVec.isLt _) (BitVec.isLt _) (BitVec.isLt _)
  exact append_halves_eq hfst hsnd

/-! ### Direct multiplication and division -/

/-- A 2W-bit multiplication of W-bit operands does not wrap (41_mul.md R114). -/
theorem toNat_mul_double {w : Nat} (x y : BitVec w) :
    (x.setWidth (2 * w) * y.setWidth (2 * w)).toNat = x.toNat * y.toNat := by
  have hlt : x.toNat * y.toNat < 2 ^ (2 * w) := by
    rw [Nat.two_mul, Nat.pow_add]
    exact Nat.mul_lt_mul'' x.isLt y.isLt
  rw [BitVec.toNat_mul, BitVec.toNat_setWidth_of_le (by omega), BitVec.toNat_setWidth_of_le (by omega),
    Nat.mod_eq_of_lt hlt]

/-- Settles O15: the slices of the 2W-bit product are MulCore's halves, at any width. -/
theorem mulDirectEqualsMulCore : Obligations.MulDirectEqualsMulCore := by
  intro width x y
  refine Prod.ext (BitVec.eq_of_toNat_eq ?_) (BitVec.eq_of_toNat_eq ?_)
  · have hlt : x.toNat * y.toNat / 2 ^ width.bits < 2 ^ width.bits :=
      Nat.div_lt_of_lt_mul (Nat.mul_lt_mul'' x.isLt y.isLt)
    rw [mulCore_fst_toNat, mulDirect, BitVec.extractLsb'_toNat, toNat_mul_double, Nat.shiftRight_eq_div_pow,
      Nat.mod_eq_of_lt hlt]
  · rw [mulCore_snd_toNat, mulDirect, BitVec.extractLsb'_toNat, toNat_mul_double, Nat.shiftRight_zero]

/-- Settles O22: on a valid input the quotient is below 2^W, so reducing it changes nothing. -/
theorem divDirectEqualsDivCore : Obligations.DivDirectEqualsDivCore := by
  intro width hi lo x _ h w d
  have hquo : d.1 = (hi.toNat * 2 ^ w + lo.toNat) / x.toNat := Nat.mod_eq_of_lt (quotient_lt lo.isLt h)
  have hrem : d.2 = (hi.toNat * 2 ^ w + lo.toNat) % x.toNat := rfl
  rw [hquo, hrem]
  exact ⟨divCore_valid h, quotient_lt lo.isLt h, (Nat.mod_lt _ (Nat.zero_lt_of_lt h)).trans x.isLt⟩

/-! ### The round trip -/

/-- A product over its second factor: the halves of `a * b` make up the dividend (41_mul.md R116, 42_div.md R134). -/
theorem div_mod_of_product {M a b : Nat} (hb : b ≠ 0) :
    (a * b / M * M + a * b % M) / b = a ∧ (a * b / M * M + a * b % M) % b = 0 := by
  rw [Nat.div_add_mod']
  exact ⟨Nat.mul_div_cancel a (Nat.pos_of_ne_zero hb), Nat.mul_mod_left a b⟩

/-- Settles O21: the high half is below the divisor, so the divide is valid and answers `div_mod_of_product`. -/
theorem mulThenDivRoundTrips : Obligations.MulThenDivRoundTrips := by
  intro wsel a b c s w hb
  have hw : w ≤ 64 := resolveWidth_le s.cfg wsel
  refine ⟨_, _, (exec_mul wsel a b c s).trans (deliverPair_eq_zext64 _ s), ?_⟩
  generalize hhi : zext64 (mulCore (operand w a) (operand w b)).1 = hi
  generalize hlo : zext64 (mulCore (operand w a) (operand w b)).2 = lo
  have hhi' : low w hi = low w a * low w b / 2 ^ w := by
    rw [← hhi, low_zext64 hw, mulCore_fst_toNat, operand_toNat, operand_toNat]
  have hlo' : low w lo = low w a * low w b % 2 ^ w := by
    rw [← hlo, low_zext64 hw, mulCore_snd_toNat, operand_toNat, operand_toNat]
  have hvalid : low w hi < low w b := hhi' ▸ mul_div_lt_right (low_lt w a) (Nat.pos_of_ne_zero hb)
  rw [exec_div]
  obtain ⟨h0, -⟩ | ⟨-, hle, -⟩ | ⟨-, -, hans⟩ :=
    divAt_cases w (opcodeByte .div wsel) hi lo b (answered s hi.toNat lo.toNat)
  · exact absurd h0 hb
  · exact absurd hvalid (Nat.not_lt.mpr hle)
  · obtain ⟨hquo, hrem⟩ := div_mod_of_product (M := 2 ^ w) (a := low w a) hb
    rw [hhi', hlo', hquo, hrem] at hans
    exact hans

end Sys2Proof.Machine
end

section
/-!
PROOFS. Quotient overflow, the frame of a divide, and the host's obligations (spec/42_div.md R137, spec/60_exceptions.md
R163, spec/70_reset_and_hazards.md R196).
-/

namespace Sys2Proof.Machine

open Sys2Proof.Safety

/-! ### When a quotient overflows, and the answer -/

/-- Only a divide overflows, with a non-zero divisor at or below hi (42_div.md R137). -/
theorem overflows_buildInstr_iff (cfg : Config) (fam : Family) (wsel : WidthSel) (a b c : Word) :
    overflows cfg (buildInstr fam wsel a b c) = true ↔
      fam = .div ∧ low (resolveWidth cfg wsel) c ≠ 0 ∧ low (resolveWidth cfg wsel) c ≤ low (resolveWidth cfg wsel) a := by
  cases fam <;> simp [overflows]

/-- A divide of the class overflow answers by `quotientOverflow` (42_div.md R137). -/
theorem exec_div_overflow (wsel : WidthSel) {hi lo x : Word} {s : State} (hx : low (resolveWidth s.cfg wsel) x ≠ 0)
    (hle : low (resolveWidth s.cfg wsel) x ≤ low (resolveWidth s.cfg wsel) hi) :
    exec (buildInstr .div wsel hi lo x) s =
      quotientOverflow (resolveWidth s.cfg wsel) (opcodeByte .div wsel) s := by
  rw [exec_div]
  obtain ⟨h0, -⟩ | ⟨-, -, hans⟩ | ⟨-, hlt, -⟩ := divAt_cases (resolveWidth s.cfg wsel) (opcodeByte .div wsel) hi lo x s
  · exact absurd h0 hx
  · exact hans
  · exact absurd hle (Nat.not_le.mpr hlt)

theorem quotientOverflow_checked {s : State} (h : s.cfg.divOvfCheck = true) (w : Nat) (op : Byte) :
    quotientOverflow w op s = .next (raise .quotientOverflow op s) :=
  if_pos h

theorem quotientOverflow_unchecked {s : State} (h : s.cfg.divOvfCheck = false) (w : Nat) (op : Byte) :
    quotientOverflow w op s = .next (deliverDraws w s) :=
  if_neg (by simp [h])

/-- Settles O19: `exec_div_overflow` with the check and without; the datapaths of R137's example by evaluation. -/
theorem quotientOverflowDrawsOrFaults : Obligations.QuotientOverflowDrawsOrFaults := by
  refine ⟨?_, by decide, by decide, by decide⟩
  intro wsel hi lo x s w hx hle
  rw [exec_div_overflow wsel hx hle]
  refine ⟨fun hcheck hflt => ?_, fun hcheck => ?_⟩
  · rw [quotientOverflow_checked hcheck, raise_unfaulted hflt]
  · rw [quotientOverflow_unchecked hcheck, deliverDraws_eq]

/-! ### Who reports the fault -/

/-- An instruction that reports QUOTIENT_OVERFLOW is an overflowing divide under the check. -/
theorem exec_quotientOverflow {i : Instr} {s t : State} (h : exec i s = .next t)
    (hres : t.response = some (.fault .quotientOverflow)) : s.cfg.divOvfCheck = true ∧ overflows s.cfg i = true := by
  obtain ⟨t', ht', -, -, -, -, hanswer, -⟩ := exec_outcome i s
  obtain rfl : t' = t := by simpa [ht'] using h
  obtain ⟨_, _, hwords, -⟩ | ⟨f, rfl, -, hf⟩ := hanswer
  · simp [hwords] at hres
  · obtain rfl : f = .quotientOverflow := by simpa using hres
    simpa using hf

/-- A step that reports QUOTIENT_OVERFLOW executes an overflowing divide under the check. -/
theorem step_quotientOverflow {s t : State} (h : step s = .next t)
    (hres : t.response = some (.fault .quotientOverflow)) :
    s.cfg.divOvfCheck = true ∧
      ∃ r i, s.inflight = some r ∧ decodeRequest r = .ok i ∧ overflows s.cfg i = true := by
  obtain ⟨-, rfl⟩ | ⟨-, -, -, rfl⟩ | ⟨-, -, -, _, _, -, rfl⟩ | ⟨-, -, r, hreq, hanswer⟩ := step_outcome h
  · simp at hres
  · simp at hres
  · simp at hres
  · obtain ⟨i, hdec, hexec⟩ | ⟨_, -, rfl⟩ := hanswer
    · obtain ⟨hcheck, hovf⟩ := exec_quotientOverflow hexec hres
      exact ⟨hcheck, r, i, hreq, hdec, hovf⟩
    · simp at hres

/-- A step that newly latches a fault reports it. -/
theorem step_latches_reported {s t : State} (h : step s = .next t) (hflt : t.flt ≠ .none) :
    t.flt = s.flt ∨ t.response = some (.fault t.flt) := by
  cases hreset : resetAsserted s with
  | true =>
    obtain rfl : applyReset s = t := by simpa [step_reset hreset] using h
    exact absurd rfl hflt
  | false =>
    obtain ⟨hkept, -⟩ | ⟨-, r, f, -, -, rfl⟩ := step_latch h hreset
    · exact .inl hkept
    · exact .inr rfl

/-- The response to an overflowing divide: the fault under the check, two free values without it (42_div.md R137). -/
theorem quotientOverflow_response (w : Nat) (op : Byte) (s : State) :
    ∃ t, quotientOverflow w op s = .next t ∧
      t.response =
        if s.cfg.divOvfCheck then some (.fault .quotientOverflow)
        else some (.result (BitVec.ofNat 64 (low w (Config.draw s.draws)))
          (BitVec.ofNat 64 (low w (Config.draw (s.draws + 1))))) := by
  cases hcheck : s.cfg.divOvfCheck with
  | true => exact ⟨_, quotientOverflow_checked hcheck w op, rfl⟩
  | false => exact ⟨_, (quotientOverflow_unchecked hcheck w op).trans (congrArg _ (deliverDraws_eq w s)), rfl⟩

/-- Settles O20: `step_quotientOverflow`, `step_latches_reported` and `quotientOverflow_response`. -/
theorem quotientOverflowFaultOnlyWhenChecked : Obligations.QuotientOverflowFaultOnlyWhenChecked := by
  refine ⟨fun s t h => ⟨fun hcheck => ?_, step_quotientOverflow h⟩, forall_instr fun fam wsel a b c s hovf => ?_⟩
  · have hres : t.response ≠ some (.fault .quotientOverflow) := fun hres => by
      obtain ⟨hcheck', -⟩ := step_quotientOverflow h hres
      simp [hcheck] at hcheck'
    refine ⟨hres, fun hflt => ?_⟩
    obtain hkept | hreported := step_latches_reported h (by simp [hflt])
    · exact hkept ▸ hflt
    · exact absurd (hflt ▸ hreported) hres
  · obtain ⟨rfl, hx, hle⟩ := (overflows_buildInstr_iff ..).mp hovf
    rw [exec_div_overflow wsel hx hle, buildInstr_widthSel]
    exact quotientOverflow_response _ _ s

/-! ### The frame of a divide -/

/-- Settles O56: `exec_outcome` for a divide. -/
theorem divFrame : Obligations.DivFrame := by
  intro wsel hi lo x s t h
  obtain ⟨t', ht', hinflight, hcfg, hrequests, hresetIn, hanswer, hdraws, -⟩ := exec_outcome (buildInstr .div wsel hi lo x) s
  obtain rfl : t' = t := by simpa [ht'] using h
  refine ⟨hcfg, hrequests, hresetIn, hinflight, fun _ _ => exec_result_latch h, fun hflt => ?_, fun hspent =>
    hdraws (.inr hspent)⟩
  obtain ⟨_, _, -, hkept⟩ | ⟨f, rfl, -⟩ := hanswer
  · exact hkept
  · exact ⟨if_neg hflt, if_neg hflt⟩

/-! ### Requests that keep the host's obligations -/

/-- The obligation on a divide is a divisor above hi (70_reset_and_hazards.md R196). -/
theorem meetsObligations_div_iff (cfg : Config) (wsel : WidthSel) (hi lo x : Word) :
    meetsObligations cfg (buildInstr .div wsel hi lo x) = true ↔
      low (resolveWidth cfg wsel) hi < low (resolveWidth cfg wsel) x := by
  simp only [meetsObligations, buildInstr_family, buildInstr_widthSel, buildInstr_operands, ne_eq, decide_not,
    Bool.and_eq_true, Bool.not_eq_true', decide_eq_false_iff_not, decide_eq_true_eq]
  omega

/-- A pair of W-bit results answers with words below 2^W. -/
theorem deliverPair_answers {w : Nat} (r : BitVec w × BitVec w) (s : State) :
    ∃ r0 r1 : Word, deliverPair r s = .next (answered s r0.toNat r1.toNat) ∧ r0.toNat < 2 ^ w ∧ r1.toNat < 2 ^ w :=
  ⟨_, _, deliverPair_eq_zext64 r s, zext64_lt _, zext64_lt _⟩

/-- An instruction that is no divide, or a divide with hi below its divisor, answers with words below 2^W. -/
theorem exec_answers (i : Instr) (s : State) (h : i.family = .div → meetsObligations s.cfg i = true) :
    ∃ r0 r1 : Word, exec i s = .next (answered s r0.toNat r1.toNat) ∧
      r0.toNat < 2 ^ resolveWidth s.cfg i.widthSel ∧ r1.toNat < 2 ^ resolveWidth s.cfg i.widthSel := by
  revert i
  refine forall_instr fun fam wsel a b c h => ?_
  rw [buildInstr_widthSel]
  cases fam with
  | add => exact exec_add wsel a b c s ▸ deliverPair_answers _ s
  | sub => exact exec_sub wsel a b c s ▸ deliverPair_answers _ s
  | mul => exact exec_mul wsel a b c s ▸ deliverPair_answers _ s
  | div =>
    obtain ⟨quo, rem, hans, hquo, hrem, -⟩ :=
      exec_div_valid wsel a b c s ((meetsObligations_div_iff s.cfg wsel a b c).mp (h (buildInstr_family ..)))
    exact ⟨quo, rem, hans, hquo, hrem⟩

/-- Settles O57: `exec_answers`; of the obligations it needs the divide's only. -/
theorem keptObligationsGiveResultWords : Obligations.KeptObligationsGiveResultWords := fun i s h =>
  exec_answers i s fun _ => h

end Sys2Proof.Machine
end

section
/-!
PROOFS. Purity and order (spec/10_state.md R29, spec/20_memory.md R44, R47): the response to a request depends on the
configuration and the free values only, and the responses to a list of presented requests come in its order.
-/

namespace Sys2Proof.Machine

open Sys2Proof.Safety

/-! ### What a response depends on -/

/-- Outcomes of the states `s` and `s'` that carry the same response: both go on, with the same configuration, and where `s`
and `s'` had drawn as many free values, so have the states after them. -/
def AnswersAlike (s s' : State) (o o' : Host.Outcome State Fault Refusal) : Prop :=
  ∃ (t t' : State) (answer : Response), o = .next t ∧ o' = .next t' ∧ t.response = some answer ∧
    t'.response = some answer ∧ t.cfg = t'.cfg ∧ (s.draws = s'.draws → t.draws = t'.draws)

section Alike

variable {s s' : State} (hcfg : s.cfg = s'.cfg)

include hcfg

theorem answered_alike (r0 r1 : Nat) : AnswersAlike s s' (.next (answered s r0 r1)) (.next (answered s' r0 r1)) :=
  ⟨_, _, _, rfl, rfl, rfl, rfl, hcfg, id⟩

theorem raise_alike (f : FaultCode) (op : Byte) : AnswersAlike s s' (.next (raise f op s)) (.next (raise f op s')) :=
  ⟨_, _, _, rfl, rfl, rfl, rfl, hcfg, id⟩

/-- An overflow answers the same where it does not draw, or draws the same (42_div.md R137). -/
theorem quotientOverflow_alike (w : Nat) (op : Byte) (hdraws : s.draws = s'.draws) :
    AnswersAlike s s' (quotientOverflow w op s) (quotientOverflow w op s') := by
  cases hcheck : s.cfg.divOvfCheck with
  | true =>
    rw [quotientOverflow_checked hcheck, quotientOverflow_checked (hcfg ▸ hcheck)]
    exact raise_alike hcfg _ op
  | false =>
    rw [quotientOverflow_unchecked hcheck, quotientOverflow_unchecked (hcfg ▸ hcheck)]
    exact ⟨_, _, _, rfl, rfl, rfl, hdraws ▸ rfl, hcfg, fun _ => congrArg (· + 2) hdraws⟩

/-- A divide reads the configuration, and the free values where it overflows. -/
theorem divAt_alike (w : Nat) (op : Byte) (hi lo x : Word)
    (hdraws : low w x ≠ 0 → low w x ≤ low w hi → s.draws = s'.draws) :
    AnswersAlike s s' (divAt w op hi lo x s) (divAt w op hi lo x s') := by
  obtain ⟨-, hans⟩ | ⟨hx, hle, hans⟩ | ⟨-, hlt, hans⟩ := divCore_cases (operand w hi) (operand w lo) (operand w x)
  · simp only [divAt, hans]
    exact raise_alike hcfg _ op
  · simp only [divAt, hans]
    rw [ne_eq, operand_eq_zero_iff] at hx
    rw [operand_toNat, operand_toNat] at hle
    exact quotientOverflow_alike hcfg w op (hdraws hx hle)
  · simp only [divAt, hans, deliverPair_eq]
    exact answered_alike hcfg _ _

/-- An instruction reads the configuration, and the free values where its quotient overflows (10_state.md R29). -/
theorem exec_alike (i : Instr) (hdraws : overflows s.cfg i = true → s.draws = s'.draws) :
    AnswersAlike s s' (exec i s) (exec i s') := by
  revert i
  refine forall_instr fun fam wsel a b c hdraws => ?_
  cases fam with
  | add =>
    simp only [exec_add, addAt_eq, ← hcfg]
    exact answered_alike hcfg _ _
  | sub =>
    simp only [exec_sub, subAt_eq, ← hcfg]
    exact answered_alike hcfg _ _
  | mul =>
    simp only [exec_mul, mulAt_eq, ← hcfg]
    exact answered_alike hcfg _ _
  | div =>
    simp only [exec_div, ← hcfg]
    exact divAt_alike hcfg _ _ a b c fun hx hle => hdraws ((overflows_buildInstr_iff ..).mpr ⟨rfl, hx, hle⟩)

end Alike

/-- Settles O44: a request that does not decode gets the same response in both, and `exec_alike` is any other's. -/
theorem responseIsPure : Obligations.ResponseIsPure := by
  intro s s' r hreq hreq' hflt hflt' hreset hreset' hcfg hdraws
  cases hdec : decodeRequest r with
  | error e =>
    exact ⟨_, _, _, step_undecodable hreq hreset hflt hdec, step_undecodable hreq' hreset' hflt' hdec, rfl, rfl⟩
  | ok i =>
    rw [step_decodable hreq hreset hflt hdec, step_decodable hreq' hreset' hflt' hdec]
    obtain ⟨t, t', answer, ht, ht', hres, hres', -⟩ :=
      exec_alike (s := beginStep s) (s' := beginStep s') hcfg i fun _ => hdraws
    exact ⟨t, t', answer, ht, ht', hres, hres'⟩

/-- Settles O45: `exec_alike` for an instruction that does not overflow. -/
theorem replayGivesTheSameResponse : Obligations.ReplayGivesTheSameResponse := by
  intro i s s' hcfg hovf
  obtain ⟨t, t', answer, ht, ht', hres, hres', -⟩ := exec_alike hcfg i (by simp [hovf])
  exact ⟨t, t', answer, ht, ht', hres, hres'⟩

/-! ### The responses over many steps -/

/-- Unfaulted, nothing in flight, and reset released from here on. -/
structure Ready (s : State) : Prop where
  flt : s.flt = .none
  inflight : s.inflight = none
  released : ∀ level ∈ s.resetIn, level = false

theorem resetAsserted_of_released {s : State} (h : ∀ level ∈ s.resetIn, level = false) : resetAsserted s = false := by
  unfold resetAsserted
  cases hlevels : s.resetIn with
  | nil => rfl
  | cons level rest => exact h level (by simp [hlevels])

theorem released_tail {levels : List Bool} (h : ∀ level ∈ levels, level = false) : ∀ level ∈ levels.tail, level = false :=
  fun level hmem => h level (List.mem_of_mem_tail hmem)

theorem responsesOver_succ {s t : State} (h : step s = .next t) (k : Nat) :
    responsesOver (k + 1) s = t.response.toList ++ responsesOver k t := by
  rw [responsesOver, h]

/-- A faulted block whose reset stays released answers nothing (60_exceptions.md R166). -/
theorem responsesOver_faulted (k : Nat) {s : State} (hflt : s.flt ≠ .none) (hlevels : ∀ level ∈ s.resetIn, level = false) :
    responsesOver k s = [] := by
  induction k generalizing s with
  | zero => rfl
  | succ k ih =>
    cases hstep : step s with
    | next t =>
      obtain ⟨hreset, -⟩ | ⟨-, -, -, rfl⟩ := step_faulted_outcome hflt hstep
      · simp [resetAsserted_of_released hlevels] at hreset
      · rw [responsesOver_succ hstep, ih (s := beginStep s) hflt (released_tail hlevels)]
        rfl
    | fault f => rw [responsesOver, hstep]
    | refused f => rw [responsesOver, hstep]

/-- With nothing presented an idle block answers nothing (60_exceptions.md R177). -/
theorem responsesOver_idle (k : Nat) {s : State} (h : Ready s) (hrequests : s.requests = []) : responsesOver k s = [] := by
  induction k generalizing s with
  | zero => rfl
  | succ k ih =>
    have hstep := step_nothing_presented h.inflight hrequests (resetAsserted_of_released h.released)
    rw [responsesOver_succ hstep, ih (s := beginStep s) ⟨h.flt, h.inflight, released_tail h.released⟩ hrequests]
    rfl

/-- What the list of answers reads of the state: the configuration and the count of free values. -/
theorem answersInOrder_congr (reqs : List Request) {s s' : State} (hcfg : s.cfg = s'.cfg) (hdraws : s.draws = s'.draws) :
    answersInOrder reqs s = answersInOrder reqs s' := by
  induction reqs generalizing s s' with
  | nil => rfl
  | cons r rest ih =>
    simp only [answersInOrder]
    cases decodeRequest r with
    | error e => rfl
    | ok i =>
      obtain ⟨t, t', answer, ht, ht', hres, hres', hcfg', hdraws'⟩ := exec_alike hcfg i fun _ => hdraws
      simp only [ht, ht', hres, hres', ih hcfg' (hdraws' hdraws)]

section First

variable {r : Request} {rest : List Request} {s t : State} {i : Instr} (hdec : decodeRequest r = .ok i)
  (hexec : exec i s = .next t)

include hdec hexec

theorem answersInOrder_result {r0 r1 : Word} (hres : t.response = some (.result r0 r1)) :
    answersInOrder (r :: rest) s = .result r0 r1 :: answersInOrder rest t := by
  simp only [answersInOrder, hdec, hexec, hres]

theorem answersInOrder_fault {f : FaultCode} (hres : t.response = some (.fault f)) :
    answersInOrder (r :: rest) s = [.fault f] := by
  simp only [answersInOrder, hdec, hexec, hres]

end First

theorem answersInOrder_undecodable {r : Request} {e : DecodeError} (hdec : decodeRequest r = .error e)
    (rest : List Request) (s : State) : answersInOrder (r :: rest) s = [.fault .illegalOp] := by
  simp only [answersInOrder, hdec]

/-! ### One transaction of a ready block -/

/-- The state in which the first of the presented requests is executed, two steps on. -/
def sampled (r : Request) (rest : List Request) (s : State) : State :=
  beginStep (accept r rest (beginStep s))

section Transaction

variable {r : Request} {rest : List Request} {s : State} (h : Ready s) (hrequests : s.requests = r :: rest)

include h

theorem sampled_released : ∀ level ∈ (sampled r rest s).resetIn, level = false :=
  released_tail (released_tail h.released)

theorem resetAsserted_accept : resetAsserted (accept r rest (beginStep s)) = false :=
  resetAsserted_of_released (released_tail h.released)

include hrequests

theorem step_ready : step s = .next (accept r rest (beginStep s)) :=
  stepAcceptsPresentedRequest s r rest h.inflight hrequests (resetAsserted_of_released h.released) h.flt

theorem responsesOver_decodable {i : Instr} {t : State} (hdec : decodeRequest r = .ok i)
    (hexec : exec i (sampled r rest s) = .next t) (k : Nat) :
    responsesOver (k + 2) s = t.response.toList ++ responsesOver k t := by
  have hstep : step (accept r rest (beginStep s)) = .next t :=
    (step_decodable rfl (resetAsserted_accept h) h.flt hdec).trans hexec
  rw [responsesOver_succ (step_ready h hrequests), responsesOver_succ hstep, accept_response, beginStep_response,
    Option.toList_none, List.nil_append]

theorem responsesOver_undecodable {e : DecodeError} (hdec : decodeRequest r = .error e) (k : Nat) :
    responsesOver (k + 2) s = [.fault .illegalOp] := by
  have hstep : step (accept r rest (beginStep s)) = .next (recorded (sampled r rest s) .illegalOp r.op) :=
    step_undecodable rfl (resetAsserted_accept h) h.flt hdec
  rw [responsesOver_succ (step_ready h hrequests), responsesOver_succ hstep,
    responsesOver_faulted (s := recorded (sampled r rest s) _ _) k (by simp) (sampled_released h)]
  rfl

end Transaction

/-- Two steps per request, up to and with the first fault, and nothing after it (20_memory.md R47). -/
theorem responsesOver_eq_answersInOrder (reqs : List Request) {s : State} (h : Ready s) (hrequests : s.requests = reqs)
    (k : Nat) : responsesOver (2 * reqs.length + k) s = answersInOrder reqs s := by
  induction reqs generalizing s with
  | nil => exact responsesOver_idle _ h hrequests
  | cons r rest ih =>
    have hlen : 2 * (r :: rest).length + k = 2 * rest.length + k + 2 := by
      rw [List.length_cons]
      omega
    rw [hlen]
    cases hdec : decodeRequest r with
    | error e => rw [responsesOver_undecodable h hrequests hdec, answersInOrder_undecodable hdec]
    | ok i =>
      obtain ⟨t, t', answer, ht, ht', hres, hres', hcfg, hdraws⟩ :=
        exec_alike (s := sampled r rest s) (s' := s) rfl i fun _ => rfl
      obtain ⟨hinflight, -, -, hrequests', hresetIn⟩ := exec_frame ht
      have hlevels : ∀ level ∈ t.resetIn, level = false := hresetIn ▸ sampled_released h
      rw [responsesOver_decodable h hrequests hdec ht, hres]
      obtain ⟨r0, r1, hwords, hflt, -⟩ | ⟨f, hf, rfl⟩ := exec_latch ht
      · obtain rfl : answer = .result r0 r1 := by simpa [hres] using hwords
        rw [ih ⟨hflt.trans h.flt, hinflight, hlevels⟩ hrequests', answersInOrder_congr rest hcfg (hdraws rfl),
          answersInOrder_result hdec ht' hres']
        rfl
      · obtain rfl : .fault f = answer := by simpa using hres
        rw [responsesOver_faulted _ (by simp [sampled, h.flt, hf]) hlevels, answersInOrder_fault hdec ht' hres']
        rfl

/-! ### Requests that are answered with result words -/

/-- A request that neither faults nor overflows: it decodes, and a divide has hi below its divisor. -/
def AnsweredWithWords (cfg : Config) (r : Request) : Prop :=
  ∃ i, decodeRequest r = .ok i ∧ (i.family = .div → meetsObligations cfg i = true)

/-- Such a request is answered with words and changes nothing else (70_reset_and_hazards.md R196). -/
theorem exec_answeredWithWords {r : Request} {s : State} (h : AnsweredWithWords s.cfg r) :
    ∃ (i : Instr) (r0 r1 : Word), decodeRequest r = .ok i ∧ exec i s = .next (answered s r0.toNat r1.toNat) := by
  obtain ⟨i, hdec, hdiv⟩ := h
  obtain ⟨r0, r1, hans, -⟩ := exec_answers i s hdiv
  exact ⟨i, r0, r1, hdec, hans⟩

theorem answerOf_congr {s s' : State} (hcfg : s.cfg = s'.cfg) (hdraws : s.draws = s'.draws) (r : Request) :
    answerOf s r = answerOf s' r := by
  unfold answerOf
  cases decodeRequest r with
  | error e => rfl
  | ok i =>
    obtain ⟨t, t', answer, ht, ht', hres, hres', -⟩ := exec_alike hcfg i fun _ => hdraws
    simp only [ht, ht', responseOf, hres, hres']

theorem answerOf_of_exec {r : Request} {i : Instr} {s t : State} (hdec : decodeRequest r = .ok i)
    (hexec : exec i s = .next t) : answerOf s r = t.response := by
  simp only [answerOf, hdec, hexec, responseOf]

/-- Answers that all carry words are those that the requests get alone. -/
theorem map_answersInOrder {reqs : List Request} {s : State} (h : ∀ r ∈ reqs, AnsweredWithWords s.cfg r) :
    (answersInOrder reqs s).map some = reqs.map (answerOf s) := by
  induction reqs generalizing s with
  | nil => rfl
  | cons r rest ih =>
    obtain ⟨hr, hrest⟩ := List.forall_mem_cons.mp h
    obtain ⟨i, r0, r1, hdec, hexec⟩ := exec_answeredWithWords hr
    rw [answersInOrder_result hdec hexec rfl, List.map_cons, List.map_cons, answerOf_of_exec hdec hexec,
      ih (s := answered s r0.toNat r1.toNat) hrest]
    exact congrArg _ (List.map_congr_left fun r' _ => answerOf_congr rfl rfl r')

/-- Settles O46: `responsesOver_eq_answersInOrder`, and `map_answersInOrder` where no request faults or overflows. -/
theorem responsesComeInOrder : Obligations.ResponsesComeInOrder := by
  intro s hflt hinflight hreleased
  have horder := responsesOver_eq_answersInOrder s.requests ⟨hflt, hinflight, hreleased⟩ rfl
  refine ⟨horder, fun hreqs => ⟨?_, fun r hr => ?_⟩⟩
  · rw [← map_answersInOrder hreqs, ← horder 0, Nat.add_zero]
  · obtain ⟨i, r0, r1, hdec, hexec⟩ := exec_answeredWithWords (hreqs r hr)
    exact ⟨_, _, answerOf_of_exec hdec hexec⟩

end Sys2Proof.Machine
end

section
/-!
PROOFS. A system of blocks (spec/20_memory.md R48, spec/60_exceptions.md R175): a step of one is its step alone, and in every
interleaving each block is where its own steps take it.
-/

namespace Sys2Proof.Machine

/-- A step of one block leaves every other as it is. -/
theorem systemStep_getElem?_of_ne {sys sys' : List State} {j k : Nat} (hne : k ≠ j) (h : systemStep k sys = some sys') :
    sys'[j]? = sys[j]? := by
  obtain ⟨s, t, -, -, rfl⟩ := systemStep_eq_some_iff.mp h
  exact List.getElem?_set_ne hne

/-- A step of a block is the step that it takes alone. -/
theorem systemStep_getElem?_self {sys sys' : List State} {k : Nat} (h : systemStep k sys = some sys') :
    ∃ s t, sys[k]? = some s ∧ step s = .next t ∧ sys'[k]? = some t := by
  obtain ⟨s, t, hs, hstep, rfl⟩ := systemStep_eq_some_iff.mp h
  exact ⟨s, t, hs, hstep, getElem?_set_of_getElem? hs t⟩

/-- Two blocks that step one after the other may step in the other order. -/
theorem systemStep_swap {sys sys' : List State} {j k : Nat} (hne : j ≠ k)
    (h : (systemStep j sys).bind (systemStep k) = some sys') : (systemStep k sys).bind (systemStep j) = some sys' := by
  obtain ⟨mid, hj, hk⟩ := Option.bind_eq_some_iff.mp h
  obtain ⟨s, t, hs, hstep, rfl⟩ := systemStep_eq_some_iff.mp hj
  obtain ⟨s', t', hs', hstep', rfl⟩ := systemStep_eq_some_iff.mp hk
  rw [List.getElem?_set_ne hne] at hs'
  refine Option.bind_eq_some_iff.mpr ⟨sys.set k t', systemStep_eq_some_iff.mpr ⟨s', t', hs', hstep', rfl⟩,
    systemStep_eq_some_iff.mpr ⟨s, t, ?_, hstep, List.set_comm _ _ hne⟩⟩
  rw [List.getElem?_set_ne hne.symm, hs]

theorem systemStep_comm (sys : List State) {j k : Nat} (hne : j ≠ k) :
    (systemStep j sys).bind (systemStep k) = (systemStep k sys).bind (systemStep j) :=
  Option.ext fun _ => ⟨systemStep_swap hne, systemStep_swap hne.symm⟩

/-- In every interleaving a block is where as many steps of its own take it. -/
theorem interleaving_getElem? {order : List Nat} {sys sys' : List State}
    (h : order.foldlM (fun now k => systemStep k now) sys = some sys') {k : Nat} {s : State} (hs : sys[k]? = some s) :
    ∃ t : State, Sys2Proof.core.run (order.count k) s = .next t ∧ sys'[k]? = some t := by
  induction order generalizing sys s with
  | nil =>
    obtain rfl : sys = sys' := by simpa using h
    exact ⟨s, rfl, hs⟩
  | cons j order ih =>
    rw [List.foldlM_cons] at h
    obtain ⟨mid, hj, hrest⟩ := Option.bind_eq_some_iff.mp h
    by_cases hjk : j = k
    · subst hjk
      obtain ⟨s', t, hs', hstep, hmid⟩ := systemStep_getElem?_self hj
      obtain rfl : s' = s := by simpa [hs'] using hs
      rw [List.count_cons_self, core_run_succ hstep]
      exact ih hrest hmid
    · rw [List.count_cons_of_ne hjk]
      exact ih hrest ((systemStep_getElem?_of_ne hjk hj).trans hs)

/-- Settles O47: the lemmas above, clause by clause. -/
theorem instancesAreIndependent : Obligations.InstancesAreIndependent :=
  ⟨fun sys _ _ hne => ⟨fun _ => systemStep_getElem?_of_ne hne.symm, systemStep_comm sys hne⟩,
    fun _ _ _ => systemStep_getElem?_self,
    fun _ _ s t hs hstep =>
      ⟨_, systemStep_eq_some_iff.mpr ⟨s, t, hs, hstep, rfl⟩, getElem?_set_of_getElem? hs t⟩,
    fun _ _ _ h _ _ => interleaving_getElem? h⟩

end Sys2Proof.Machine
end

section
/-!
PROOFS. The text of a written request (spec/30_encoding.md R72): the value of a literal, what the reader makes of operands
and of what follows them, and a whole line.
-/

namespace Sys2Proof.Machine

/-! ### Words -/

/-- A word is characters that each are one. -/
theorem isWordText_iff (text : List Char) : isWordText text = true ↔ text ≠ [] ∧ ∀ c ∈ text, isWordText [c] = true := by
  simp [isWordText]

theorem isWordText_mnemonic (fam : Family) (wsel : WidthSel) : isWordText (mnemonic fam wsel).toList = true := by
  cases fam <;> cases wsel <;> decide

/-! ### The digits of a literal -/

theorem digitsValue_append (base : Nat) (text text' : List Char) (high : Nat) :
    digitsValue base high (text ++ text') = (digitsValue base high text).bind fun v => digitsValue base v text' := by
  induction text generalizing high with
  | nil => rfl
  | cons c cs ih =>
    simp only [List.cons_append, digitsValue]
    cases digitValue base c with
    | none => rfl
    | some d => exact ih _

/-- A number written out in a base, after zeros. -/
def writtenDigits (base zeros n : Nat) : List Char :=
  List.replicate zeros '0' ++ Nat.toDigits base n

/-- `f` writes the digits of a base so that each is read with its value, as a character of a word. -/
structure WritesDigits (base : Nat) (f : Char → Char) : Prop where
  one_lt : 1 < base
  value : ∀ d < base, digitValue base (f (Nat.digitChar d)) = some d
  word : ∀ d < base, isWordText [f (Nat.digitChar d)] = true

theorem writesDigits_decimal : WritesDigits 10 id := ⟨by decide, by decide, by decide⟩

theorem writesDigits_hex_lower : WritesDigits 16 id := ⟨by decide, by decide, by decide⟩

theorem writesDigits_hex_upper : WritesDigits 16 Char.toUpper := ⟨by decide, by decide, by decide⟩

theorem mem_toDigits {base n : Nat} (hbase : 1 < base) {c : Char} (h : c ∈ Nat.toDigits base n) :
    ∃ d < base, c = Nat.digitChar d := by
  induction n using Nat.strongRecOn with
  | ind n ih =>
    by_cases hn : n < base
    · rw [Nat.toDigits_of_lt_base hn, List.mem_singleton] at h
      exact ⟨n, hn, h⟩
    · rw [Nat.toDigits_of_base_le hbase (by omega), List.mem_append, List.mem_singleton] at h
      obtain h | h := h
      · exact ih _ (Nat.div_lt_self (by omega) hbase) h
      · exact ⟨n % base, Nat.mod_lt _ (by omega), h⟩

/-- Every character of a written number is a digit of its base. -/
theorem mem_writtenDigits {base zeros n : Nat} (hbase : 1 < base) {c : Char} (h : c ∈ writtenDigits base zeros n) :
    ∃ d < base, c = Nat.digitChar d := by
  obtain h | h := List.mem_append.mp h
  · exact ⟨0, by omega, List.eq_of_mem_replicate h⟩
  · exact mem_toDigits hbase h

theorem writtenDigits_ne_nil (base zeros n : Nat) : writtenDigits base zeros n ≠ [] := by
  simp [writtenDigits, Nat.toDigits_ne_nil]

section Digits

variable {base : Nat} {f : Char → Char} (hf : WritesDigits base f)

include hf

theorem isWordText_map_writtenDigits (zeros n : Nat) : isWordText ((writtenDigits base zeros n).map f) = true := by
  refine (isWordText_iff _).mpr ⟨by simp [writtenDigits_ne_nil], fun c hc => ?_⟩
  obtain ⟨c', hc', rfl⟩ := List.mem_map.mp hc
  obtain ⟨d, hd, rfl⟩ := mem_writtenDigits hf.one_lt hc'
  exact hf.word d hd

theorem digitsValue_map_toDigits (n : Nat) : digitsValue base 0 ((Nat.toDigits base n).map f) = some n := by
  have hbase := hf.one_lt
  induction n using Nat.strongRecOn with
  | ind n ih =>
    by_cases hn : n < base
    · simp [Nat.toDigits_of_lt_base hn, digitsValue, hf.value n hn]
    · rw [Nat.toDigits_of_base_le hbase (by omega), List.map_append, digitsValue_append,
        ih _ (Nat.div_lt_self (by omega) hbase)]
      simp [digitsValue, hf.value (n % base) (Nat.mod_lt _ (by omega)), Nat.div_add_mod']

/-- A written number has its value, with leading zeros or without. -/
theorem digitsValue_map_writtenDigits (zeros n : Nat) :
    digitsValue base 0 ((writtenDigits base zeros n).map f) = some n := by
  have hzero : digitValue base (f '0') = some 0 := hf.value 0 (Nat.zero_lt_of_lt hf.one_lt)
  induction zeros with
  | zero => exact digitsValue_map_toDigits hf n
  | succ k ih => simpa [writtenDigits, List.replicate_succ, digitsValue, hzero] using ih

end Digits

/-! ### Literals and names -/

/-- What is written without an `x` is read as decimal. -/
theorem literalValue_decimal {text : List Char} (hne : text ≠ []) (hx : 'x' ∉ text) :
    literalValue text = digitsValue 10 0 text := by
  unfold literalValue
  split
  · exact absurd rfl hne
  · simp at hx
  · rfl

theorem literalValue_hex {digits : List Char} (hne : digits ≠ []) :
    literalValue ('0' :: 'x' :: digits) = digitsValue 16 0 digits := by
  obtain ⟨c, cs, rfl⟩ := List.exists_cons_of_ne_nil hne
  rfl

theorem operandValue_literal {text : List Char} {n : Nat} (names : HostNames) (h : literalValue text = some n)
    (hn : n < 2 ^ 64) : operandValue names text = some (BitVec.ofNat 64 n) := by
  simp only [operandValue, h, hn, if_true]

theorem operandValue_name {name : List Char} (names : HostNames) (h : literalValue name = none) :
    operandValue names name = names.lookup name := by
  simp only [operandValue, h]

theorem literalValue_writtenDigits (zeros n : Nat) : literalValue (writtenDigits 10 zeros n) = some n := by
  have hx : 'x' ∉ writtenDigits 10 zeros n := fun h => by
    obtain ⟨d, hd, hc⟩ := mem_writtenDigits (by decide) h
    have hno : ∀ d < 10, 'x' ≠ Nat.digitChar d := by decide
    exact hno d hd hc
  rw [literalValue_decimal (writtenDigits_ne_nil 10 zeros n) hx]
  simpa using digitsValue_map_writtenDigits writesDigits_decimal zeros n

/-- A hex literal is one word with its value, in either case of its digits. -/
theorem hex_literal {f : Char → Char} (hf : WritesDigits 16 f) (zeros n : Nat) :
    isWordText ('0' :: 'x' :: (writtenDigits 16 zeros n).map f) = true ∧
      literalValue ('0' :: 'x' :: (writtenDigits 16 zeros n).map f) = some n := by
  constructor
  · exact isWordText_append (a := ['0', 'x']) (.inr (by decide)) (isWordText_map_writtenDigits hf zeros n)
  · rw [literalValue_hex (by simp [writtenDigits_ne_nil]), digitsValue_map_writtenDigits hf]

/-- A literal of any of the three forms is one word with its value. -/
theorem literal_forms (names : HostNames) {n : Nat} (zeros : Nat) (hn : n < 2 ^ 64) :
    ∀ text ∈ [writtenDigits 10 zeros n, '0' :: 'x' :: writtenDigits 16 zeros n,
        '0' :: 'x' :: (writtenDigits 16 zeros n).map Char.toUpper],
      isWordText text = true ∧ operandValue names text = some (BitVec.ofNat 64 n) := by
  have hdec := isWordText_map_writtenDigits writesDigits_decimal zeros n
  obtain ⟨hlower, hlower'⟩ := hex_literal writesDigits_hex_lower zeros n
  obtain ⟨hupper, hupper'⟩ := hex_literal writesDigits_hex_upper zeros n
  rw [List.map_id] at hdec hlower hlower'
  simp only [List.forall_mem_cons]
  exact ⟨⟨hdec, operandValue_literal names (literalValue_writtenDigits zeros n) hn⟩,
    ⟨hlower, operandValue_literal names hlower' hn⟩, ⟨hupper, operandValue_literal names hupper' hn⟩, List.forall_mem_nil _⟩

/-! ### What follows the last operand -/

/-- Text that ends the word before it and is read as result names, or as none. -/
def ReadsResults (text : List Char) (results : Option (List Char × List Char)) : Prop :=
  ∃ after, (∀ w, isWordText w = true → tokens (w ++ text) [] = .word w :: after) ∧ resultNames after = some results

/-- A comment, or nothing, after the last word. -/
theorem tokens_word_comment {w comment : List Char} (hw : isWordText w = true)
    (hcomment : comment = [] ∨ ∃ rest, comment = ' ' :: ';' :: rest) : tokens (w ++ comment) [] = [.word w] := by
  obtain rfl | ⟨rest, rfl⟩ := hcomment
  · rw [List.append_nil, tokens_word_end hw]
  · rw [tokens_word_space hw, tokens_comment]

/-- A comma and a space between words. -/
theorem tokens_word_separator {w : List Char} (hw : isWordText w = true) (rest : List Char) :
    tokens (w ++ (", ".toList ++ rest)) [] = .word w :: .comma :: tokens rest [] := by
  change tokens (w ++ ',' :: ' ' :: rest) [] = _
  rw [tokens_word_comma hw, tokens_space]

section Comment

variable {comment : List Char} (hcomment : comment = [] ∨ ∃ rest, comment = ' ' :: ';' :: rest)

include hcomment

theorem readsResults_none : ReadsResults comment none :=
  ⟨[], fun _ hw => tokens_word_comment hw hcomment, rfl⟩

theorem readsResults_some {n0 n1 : List Char} (h0 : isWordText n0 = true) (h1 : isWordText n1 = true) :
    ReadsResults (" -> ".toList ++ (n0 ++ (", ".toList ++ (n1 ++ comment)))) (some (n0, n1)) := by
  refine ⟨[.arrow, .word n0, .comma, .word n1], fun w hw => ?_, rfl⟩
  change tokens (w ++ ' ' :: '-' :: '>' :: ' ' :: (n0 ++ (", ".toList ++ (n1 ++ comment)))) [] = _
  rw [tokens_word_space hw, tokens_arrow, tokens_space, tokens_word_separator h0, tokens_word_comment h1 hcomment]

end Comment

/-! ### Operands and the line -/

/-- Text that is read as operands with these values and what follows them. -/
def ReadsOperands (names : HostNames) (text : List Char) (values : List Word)
    (results : Option (List Char × List Char)) : Prop :=
  ∃ after, operandValues names (tokens text []) = some (values, after) ∧ resultNames after = some results

/-- The last operand: no comma follows, since none begins result names. -/
theorem readsOperands_last {names : HostNames} {a text : List Char} {v : Word} {results : Option (List Char × List Char)}
    (ha : isWordText a = true) (hv : operandValue names a = some v) (h : ReadsResults text results) :
    ReadsOperands names (a ++ text) [v] results := by
  obtain ⟨after, htokens, hafter⟩ := h
  refine ⟨after, ?_, hafter⟩
  rw [htokens a ha, operandValues, hv, Option.map_some]
  rintro rest rfl
  simp [resultNames] at hafter

theorem readsOperands_cons {names : HostNames} {a text : List Char} {v : Word} {values : List Word}
    {results : Option (List Char × List Char)} (ha : isWordText a = true) (hv : operandValue names a = some v)
    (h : ReadsOperands names text values results) :
    ReadsOperands names (a ++ (", ".toList ++ text)) (v :: values) results := by
  obtain ⟨after, hvalues, hafter⟩ := h
  refine ⟨after, ?_, hafter⟩
  simp only [tokens_word_separator ha, operandValues, hv, hvalues]

/-- A line is its mnemonic's operation on the values of its operands. -/
theorem assembleText_mnemonic {names : HostNames} {text : List Char} {values : List Word}
    {results : Option (List Char × List Char)} (fam : Family) (wsel : WidthSel)
    (h : ReadsOperands names text values results) :
    assembleText names ((mnemonic fam wsel).toList ++ (" ".toList ++ text)) =
      (assemble fam wsel values).map fun i => { instr := i, results := results } := by
  obtain ⟨after, hvalues, hafter⟩ := h
  have htokens : tokens ((mnemonic fam wsel).toList ++ (" ".toList ++ text)) [] =
      .word (mnemonic fam wsel).toList :: tokens text [] :=
    tokens_word_space (isWordText_mnemonic fam wsel) text
  rw [assembleText, htokens]
  simp only [assembleTokens, hvalues, String.ofList_toList, assembleLine_mnemonic, hafter]
  cases assemble fam wsel values <;> rfl

section Line

variable {names : HostNames} {a b c text : List Char} {va vb vc : Word} {results : Option (List Char × List Char)}
  (ha : isWordText a = true) (hb : isWordText b = true) (hva : operandValue names a = some va)
  (hvb : operandValue names b = some vb) (h : ReadsResults text results) (fam : Family) (wsel : WidthSel)

include ha hb hva hvb h

theorem assembleText_two :
    assembleText names ((mnemonic fam wsel).toList ++ " ".toList ++ a ++ ", ".toList ++ b ++ text) =
      (assemble fam wsel [va, vb]).map fun i => { instr := i, results := results } := by
  simp only [List.append_assoc]
  exact assembleText_mnemonic fam wsel (readsOperands_cons ha hva (readsOperands_last hb hvb h))

theorem assembleText_three (hc : isWordText c = true) (hvc : operandValue names c = some vc) :
    assembleText names ((mnemonic fam wsel).toList ++ " ".toList ++ a ++ ", ".toList ++ b ++ ", ".toList ++ c ++ text) =
      (assemble fam wsel [va, vb, vc]).map fun i => { instr := i, results := results } := by
  simp only [List.append_assoc]
  exact assembleText_mnemonic fam wsel
    (readsOperands_cons ha hva (readsOperands_cons hb hvb (readsOperands_last hc hvc h)))

end Line

/-! ### Result names -/

/-- Two different names that a response binds hold its words (30_encoding.md R72). -/
theorem lookup_bindResults {line : AssembledLine} {n0 n1 : List Char} (hresults : line.results = some (n0, n1))
    (hne : n0 ≠ n1) (r0 r1 : Word) (names : HostNames) :
    (bindResults line (.result r0 r1) names).lookup n0 = some r0 ∧
      (bindResults line (.result r0 r1) names).lookup n1 = some r1 := by
  have hbound : bindResults line (.result r0 r1) names = (n0, r0) :: (n1, r1) :: names := by
    simp only [bindResults, hresults, resultWords]
  have hbeq : (n1 == n0) = false := beq_false_of_ne hne.symm
  simp [hbound, List.lookup_cons, hbeq]

/-- Settles O35: literals by `literal_forms`, lines by `assembleText_two` and `assembleText_three` for each text that may
follow the operands, result names by `lookup_bindResults`. -/
theorem assemblerReadsEveryWrittenForm : Obligations.AssemblerReadsEveryWrittenForm := by
  unfold Obligations.AssemblerReadsEveryWrittenForm
  intro isComment results
  refine ⟨fun names n zeros hn => literal_forms names zeros hn, fun names name v hlit hlookup =>
    (operandValue_name names hlit).trans hlookup, ?_, ?_⟩
  · intro names fam wsel a b c n0 n1 comment va vb vc ha hb hc h0 h1 hva hvb hvc hcomment two three read
    have hplain := readsResults_none hcomment
    have hnamed : ReadsResults (results n0 n1 ++ comment) (some (n0, n1)) := by
      simpa only [results, List.append_assoc] using readsResults_some hcomment h0 h1
    have htwo {text names'} (h : ReadsResults text names') := assembleText_two ha hb hva hvb h fam wsel
    have hthree {text names'} (h : ReadsResults text names') := assembleText_three ha hb hva hvb h fam wsel hc hvc
    by_cases hfam : fam = .mul
    · subst hfam
      rw [if_pos rfl]
      refine ⟨⟨htwo hplain, ?_⟩, hthree hplain, ?_⟩ <;> rw [List.append_assoc]
      · exact htwo hnamed
      · exact hthree hnamed
    · rw [if_neg hfam]
      simp only [assemble_of_ne_mul hfam, Option.map_some] at hthree
      refine ⟨hthree hplain, ?_⟩
      rw [List.append_assoc]
      exact hthree hnamed
  · intro names line n0 n1 r0 r1 hresults h0 h1 hne bound
    rw [operandValue_name bound h0, operandValue_name bound h1]
    exact lookup_bindResults hresults hne r0 r1 names

end Sys2Proof.Machine
end
